-- ==== Sys2Proof/Word.lean ====
section
/-! DEFINITION. The widths of the LIVID64 codec core (spec/00_scope.md R7, R9) as word types: each
vector is something the spec numbers bit by bit. -/

namespace Sys2Proof

/-- A command word or a response word: `CMD_W = RSP_W = 256` (R7, R60, R66). -/
abbrev Word256 := BitVec 256

/-- The integer codomain `u64`: `VALUE_W = 64` (R7, R9). -/
abbrev Value := BitVec 64

/-- A digit `u6`, one character's worth of bits: `DIGIT_W = 6` (R7, R9). -/
abbrev Digit := BitVec 6

/-- A symbol code `u8`, one character on the interface: `SYM_W = 8` (R7, R63). -/
abbrev Symbol := BitVec 8

/-- The raw capacity `u66` of an 11-character string: `RAW_W = 66` (R7, R140). -/
abbrev Raw := BitVec 66

/-- The 3-bit `OP` and `ROP` fields (R60, R66). -/
abbrev OpCode := BitVec 3

/-- The 11 symbol lanes of a command or response word, lane i being character position i (R63, R66). -/
abbrev Lanes := Vector Symbol 11

/-- The parameter `ALPHABET`: 64 symbol codes, position v holding digit v's symbol (R100). -/
abbrev Alphabet := Vector Symbol 64

end Sys2Proof
end

