-- ==== Sys2Proof/Syntax.lean ====
section
/-! DEFINITION. The instruction set: one constructor per row of spec/opcode_table.json. -/

namespace Sys2Proof

/-- The operand fields of the one command format (spec/30_encoding.md R60), all of them, the fields an
operation ignores (R69) included: that a field is ignored is a fact about the meanings. -/
structure Operands where
  /-- `LEN = cmd[15:8]` (R64). -/
  len : BitVec 8
  /-- `WIDE = cmd[16]` (R62). -/
  wide : Bool
  /-- `VAL = cmd[127:64]` (R61). -/
  val : Value
  /-- `SYM[0] .. SYM[10]` (R63). -/
  sym : Lanes
  deriving DecidableEq, Repr

/-- One constructor per row of the opcode table (R68).  A reserved row matches a word by its `OP` alone
and gives no other bit a meaning (R201), so it carries the whole command word. -/
inductive Instr where
  /-- `ENC`, OP 0: encode a value into N characters (R122). -/
  | enc (o : Operands)
  /-- `DEC`, OP 1: decode N characters into a value (R142). -/
  | dec (o : Operands)
  /-- `LSYM`, OP 2: LUT forward lookup (R104). -/
  | lsym (o : Operands)
  /-- `LVAL`, OP 3: LUT inverse lookup (R105). -/
  | lval (o : Operands)
  /-- `RESERVED_OP4`: reserved, gives ILLEGAL (R201). -/
  | reservedOp4 (cmd : Word256)
  /-- `RESERVED_OP5`: reserved, gives ILLEGAL (R201). -/
  | reservedOp5 (cmd : Word256)
  /-- `RESERVED_OP6`: reserved, gives ILLEGAL (R201). -/
  | reservedOp6 (cmd : Word256)
  /-- `RESERVED_OP7`: reserved, gives ILLEGAL (R201). -/
  | reservedOp7 (cmd : Word256)
  deriving DecidableEq, Repr

end Sys2Proof
end

