-- ==== Sys2Proof/WellFormed.lean ====
section
/-! DEFINITION. Which terms are well formed: an instruction that has an encoding, and an `ALPHABET` that
meets the laws of spec/40_alphabet_lut.md R100. -/

namespace Sys2Proof

/-- A reserved row's command word really has that row's `OP` (opcode table: mask 7 on `OP`).  The widths
of `Operands` are the widths of the fields, so every operand of the four operations has an encoding. -/
def Instr.wellFormed : Instr → Bool
  | .enc _ => true
  | .dec _ => true
  | .lsym _ => true
  | .lval _ => true
  | .reservedOp4 cmd => cmd.extractLsb' 0 3 == 4#3
  | .reservedOp5 cmd => cmd.extractLsb' 0 3 == 5#3
  | .reservedOp6 cmd => cmd.extractLsb' 0 3 == 6#3
  | .reservedOp7 cmd => cmd.extractLsb' 0 3 == 7#3

/-- R100(a): no symbol stands at two positions. -/
abbrev Alphabet.Distinct (a : Alphabet) : Prop :=
  ∀ i j : Fin 64, i ≠ j → a[i] ≠ a[j]

/-- R100(c): every symbol code is in 0x21..0x7E. -/
abbrev Alphabet.PrintableAscii (a : Alphabet) : Prop :=
  ∀ i : Fin 64, 0x21 ≤ a[i].toNat ∧ a[i].toNat ≤ 0x7E

/-- R100: an admissible `ALPHABET`.  Law (b), total over 0..63, is the type `Vector Symbol 64`. -/
abbrev Alphabet.Admissible (a : Alphabet) : Prop :=
  Alphabet.Distinct a ∧ Alphabet.PrintableAscii a

end Sys2Proof
end

