-- ==== Sys2Proof/Decode.lean ====
section
/-! DEFINITION. The command word of spec/30_encoding.md: its fields (R60 to R65), the decoder (R68, R71),
the encoder, and the opcode table's match and mask pairs. -/

namespace Sys2Proof

/-! ### The fields of a command word (R60) -/

/-- `OP = cmd[2:0]`. -/
def cmdOp (cmd : Word256) : OpCode := cmd.extractLsb' 0 3

/-- `RSVD0 = cmd[7:3]`, which must be zero (R65). -/
def cmdRsvd0 (cmd : Word256) : BitVec 5 := cmd.extractLsb' 3 5

/-- `LEN = cmd[15:8]` (R64). -/
def cmdLen (cmd : Word256) : BitVec 8 := cmd.extractLsb' 8 8

/-- `WIDE = cmd[16]` (R62). -/
def cmdWide (cmd : Word256) : Bool := cmd.getLsbD 16

/-- `RSVD1 = cmd[63:17]`, which must be zero (R65). -/
def cmdRsvd1 (cmd : Word256) : BitVec 47 := cmd.extractLsb' 17 47

/-- `VAL = cmd[127:64]` (R61). -/
def cmdVal (cmd : Word256) : Value := cmd.extractLsb' 64 64

/-- Lane i of a command or response word, `w[128 + 8i + 7 : 128 + 8i]` (R43, R63, R66). -/
def wordLane (w : Word256) (i : Nat) : Symbol := w.extractLsb' (128 + 8 * i) 8

/-- `RSVD2 = cmd[255:216]`, which must be zero (R65). -/
def cmdRsvd2 (cmd : Word256) : BitVec 40 := cmd.extractLsb' 216 40

/-- The 11 lanes whose lane i is `f i`. -/
def lanesOf (f : Nat → Symbol) : Lanes :=
  #v[f 0, f 1, f 2, f 3, f 4, f 5, f 6, f 7, f 8, f 9, f 10]

/-- The lanes side by side, lane 0 lowest (R43: character 0 is the lowest byte of word W2). -/
def lanesBits (l : Lanes) : BitVec 88 :=
  l[10] ++ l[9] ++ l[8] ++ l[7] ++ l[6] ++ l[5] ++ l[4] ++ l[3] ++ l[2] ++ l[1] ++ l[0]

/-- The operand fields of a command word, assembled as R73 says: none is extended or scaled. -/
def operandsOf (cmd : Word256) : Operands :=
  { len := cmdLen cmd, wide := cmdWide cmd, val := cmdVal cmd, sym := lanesOf (wordLane cmd) }

/-- Some bit of `RSVD0`, `RSVD1` or `RSVD2` is set (R65). -/
def reservedBitsSet (cmd : Word256) : Bool :=
  cmdRsvd0 cmd != 0 || cmdRsvd1 cmd != 0 || cmdRsvd2 cmd != 0

/-! ### The decoder -/

/-- Why a word is no row of the opcode table. -/
inductive DecodeError where
  /-- `OP` names ENC, DEC, LSYM or LVAL and a reserved bit is set: "a word with a reserved bit set
  matches no legal row and gives ILLEGAL" (opcode table; R65, R71).  Carries the `OP`. -/
  | reservedBits (op : OpCode)
  deriving DecidableEq, Repr

/-- The decoder: total on the 2^256 command words (R68, R71, R72). -/
def decode (cmd : Word256) : Except DecodeError Instr :=
  if cmdOp cmd = 4#3 then .ok (.reservedOp4 cmd)
  else if cmdOp cmd = 5#3 then .ok (.reservedOp5 cmd)
  else if cmdOp cmd = 6#3 then .ok (.reservedOp6 cmd)
  else if cmdOp cmd = 7#3 then .ok (.reservedOp7 cmd)
  else if reservedBitsSet cmd then .error (.reservedBits (cmdOp cmd))
  else if cmdOp cmd = 0#3 then .ok (.enc (operandsOf cmd))
  else if cmdOp cmd = 1#3 then .ok (.dec (operandsOf cmd))
  else if cmdOp cmd = 2#3 then .ok (.lsym (operandsOf cmd))
  else .ok (.lval (operandsOf cmd))

/-- A word as spec/opcode_table.json numbers it: `nbits` bits of `w`, every bit above them zero. -/
def tableWord (nbits w : Nat) : Word256 := BitVec.ofNat 256 (w % 2 ^ nbits)

/-- What the decoder reads from a row's word.  A command is one 256-bit word with no byte swapping
(R43, R72), so the table's bit numbers are the word's. -/
def decodeTableWord (nbits w : Nat) : Option Instr :=
  match decode (tableWord nbits w) with
  | .ok i => some i
  | .error _ => none

/-! ### The encoder -/

/-- The command word with these operand fields, reserved fields zero (R60, R65). -/
def packCommand (op : OpCode) (o : Operands) : Word256 :=
  0#40 ++ lanesBits o.sym ++ o.val ++ 0#47 ++ BitVec.ofBool o.wide ++ o.len ++ 0#5 ++ op

/-- The command word of an instruction (R60, R68). -/
def encode : Instr → Word256
  | .enc o => packCommand 0#3 o
  | .dec o => packCommand 1#3 o
  | .lsym o => packCommand 2#3 o
  | .lval o => packCommand 3#3 o
  | .reservedOp4 cmd => cmd
  | .reservedOp5 cmd => cmd
  | .reservedOp6 cmd => cmd
  | .reservedOp7 cmd => cmd

/-! ### The opcode table's match and mask -/

/-- The `OP` of an instruction's row, and the match value of the row (R68). -/
def instrOp : Instr → OpCode
  | .enc _ => 0#3
  | .dec _ => 1#3
  | .lsym _ => 2#3
  | .lval _ => 3#3
  | .reservedOp4 _ => 4#3
  | .reservedOp5 _ => 5#3
  | .reservedOp6 _ => 6#3
  | .reservedOp7 _ => 7#3

/-- The mask of ENC, DEC, LSYM and LVAL: OP, RSVD0, RSVD1 and RSVD2 (R68, opcode table). -/
def legalMask : Word256 :=
  0xFFFFFFFFFF00000000000000000000000000000000000000FFFFFFFFFFFE00FF#256

/-- The mask of an instruction's row: `legalMask`, or `OP` alone for a reserved row (opcode table). -/
def rowMask : Instr → Word256
  | .enc _ => legalMask
  | .dec _ => legalMask
  | .lsym _ => legalMask
  | .lval _ => legalMask
  | .reservedOp4 _ => 7#256
  | .reservedOp5 _ => 7#256
  | .reservedOp6 _ => 7#256
  | .reservedOp7 _ => 7#256

/-- The eight rows as (match, mask) pairs, in the table's order. -/
def opcodeRows : List (Word256 × Word256) :=
  [(0#256, legalMask), (1#256, legalMask), (2#256, legalMask), (3#256, legalMask),
   (4#256, 7#256), (5#256, 7#256), (6#256, 7#256), (7#256, 7#256)]

end Sys2Proof
end

