-- ==== Sys2Proof/Config.lean ====
section
/-! DEFINITION. What an implementation fixes (spec/00_scope.md R7), the reference alphabet profile
(spec/40_alphabet_lut.md R103), and the values the spec leaves free (R62, R231). -/

namespace Sys2Proof.Config

/-- `DIGIT_W` (R7). -/
abbrev digitW : Nat := 6

/-- `N_MIN` (R7). -/
abbrev nMin : Nat := 1

/-- `N_MAX` (R7). -/
abbrev nMax : Nat := 11

/-- The reference profile `RFC4648-URL`, position by position as R103 tabulates it.
`ALPHABET` itself is OPEN (R100): the machine reads the alphabet of its state, never this constant;
only `State.reset` starts from it.  DESIGN CHOICE (notes/assumptions/1.md), unsafe. -/
def rfc4648Url : Alphabet :=
  #v[0x41#8, 0x42#8, 0x43#8, 0x44#8, 0x45#8, 0x46#8, 0x47#8, 0x48#8,
     0x49#8, 0x4A#8, 0x4B#8, 0x4C#8, 0x4D#8, 0x4E#8, 0x4F#8, 0x50#8] ++
  #v[0x51#8, 0x52#8, 0x53#8, 0x54#8, 0x55#8, 0x56#8, 0x57#8, 0x58#8,
     0x59#8, 0x5A#8, 0x61#8, 0x62#8, 0x63#8, 0x64#8, 0x65#8, 0x66#8] ++
  #v[0x67#8, 0x68#8, 0x69#8, 0x6A#8, 0x6B#8, 0x6C#8, 0x6D#8, 0x6E#8,
     0x6F#8, 0x70#8, 0x71#8, 0x72#8, 0x73#8, 0x74#8, 0x75#8, 0x76#8] ++
  #v[0x77#8, 0x78#8, 0x79#8, 0x7A#8, 0x30#8, 0x31#8, 0x32#8, 0x33#8,
     0x34#8, 0x35#8, 0x36#8, 0x37#8, 0x38#8, 0x39#8, 0x2D#8, 0x5F#8]

/-- `rsp_valid_q` after power-up and before the first reset edge: unspecified (R231), a free value.
DESIGN CHOICE (notes/assumptions/5.md), safe. -/
opaque powerUpRspValid : Bool

/-- `rsp_q` after power-up and before the first reset edge: unspecified (R231), a free value.
DESIGN CHOICE (notes/assumptions/5.md), safe. -/
opaque powerUpRsp : Word256

/-- The `VAL` the host sends with a negative integer: "`WIDE = 1`, `VAL` any" (R62), a free value.
DESIGN CHOICE (notes/assumptions/10.md), safe. -/
opaque negativeVal : Int → Value

end Sys2Proof.Config
end

