-- ==== Sys2Proof/Machine/State.lean ====
section
/-! DEFINITION. The state of the block and of its surroundings (spec/10_state.md R22, R24, R26, R27, R30):
plain data, one field per piece of state of INVENTORY.md. -/

namespace Sys2Proof.Machine

/-- The four input ports as they stand just before one rising edge of `clk` (R27, R233).  Each is 0 or 1
(R236(d)): notes/assumptions/12.md. -/
structure PortInputs where
  /-- `rst`: synchronous reset, active high (R230). -/
  rst : Bool
  /-- `cmd_valid`: the host presents a command. -/
  cmdValid : Bool
  /-- `cmd_data`: the command word. -/
  cmdData : Word256
  /-- `rsp_ready`: the host takes the response this cycle. -/
  rspReady : Bool
  deriving DecidableEq, Repr

/-- The inputs of a host that does nothing: every port 0.  What a cycle past the end of
`State.inputs` reads.  DESIGN CHOICE (notes/assumptions/2.md), unsafe. -/
def PortInputs.idle : PortInputs :=
  { rst := false, cmdValid := false, cmdData := 0#256, rspReady := false }

/-- The state. -/
structure State where
  /-- `rsp_valid_q`, 1 bit (R24). -/
  rspValidQ : Bool
  /-- `rsp_q`, 256 bits, laid out as the response word of R66 (R24). -/
  rspQ : Word256
  /-- `ALPHABET`, the instance's parameter (R100): the contents of `FWD_ROM`, from which `INV_ROM` is
  derived (R26).  No step writes it (R25).  DESIGN CHOICE (notes/assumptions/1.md). -/
  alphabet : Alphabet
  /-- How many commands have been accepted: the index of the next one, "the model's only notion of
  program position", with no width limit (R22).  DEDUCED (notes/assumptions/3.md). -/
  cmdIndex : Nat
  /-- The host (R20): its port inputs at the coming rising edges, the next edge first.
  DESIGN CHOICE (notes/assumptions/2.md). -/
  inputs : List PortInputs
  deriving DecidableEq, Repr

/-- The state an instance with a given alphabet has right after a reset edge, with a given host
(R30: `rsp_valid_q = 0`, `rsp_q = 0`, the ROMs constant, no other state). -/
def State.resetWith (alphabet : Alphabet) (inputs : List PortInputs) : State :=
  { rspValidQ := false, rspQ := 0#256, alphabet := alphabet, cmdIndex := 0, inputs := inputs }

/-- The machine right after reset (R30), with the reference alphabet profile of R103 and a host that
presents nothing.  DESIGN CHOICE for those two (notes/assumptions/1.md, 2.md), unsafe. -/
def State.reset : State := State.resetWith Config.rfc4648Url []

/-- An instance after power-up and before the first reset edge: the two registers hold unspecified
values, drawn freely (R231).  DESIGN CHOICE (notes/assumptions/5.md), safe. -/
def State.powerUp (alphabet : Alphabet) (inputs : List PortInputs) : State :=
  { rspValidQ := Config.powerUpRspValid, rspQ := Config.powerUpRsp, alphabet := alphabet,
    cmdIndex := 0, inputs := inputs }

/-- The fields of a response word that are not always zero (R66). -/
structure Response where
  /-- `STATUS = rsp[2:0]`. -/
  status : BitVec 3
  /-- `ROP = rsp[10:8]`, a copy of the command's `OP`. -/
  rop : OpCode
  /-- `RLEN = rsp[23:16]`. -/
  rlen : BitVec 8
  /-- `RVAL = rsp[127:64]`. -/
  rval : Value
  /-- `RSYM[0] .. RSYM[10]`. -/
  rsym : Lanes
  deriving DecidableEq, Repr

/-- What a successful operation puts in its response beside `STATUS` and `ROP` (R67). -/
structure Payload where
  rlen : BitVec 8
  rval : Value
  rsym : Lanes
  deriving DecidableEq, Repr

/-- Why the machine stops with a fault: never.  "The block never hangs, never stalls for an internal
reason and never refuses a command" (R205), so there is no constructor. -/
inductive Fault where
  deriving DecidableEq, Repr

/-- Why an instruction has no meaning. -/
inductive Refusal where
  /-- Raised by no arm: every row of the opcode table has its meaning.  Safe. -/
  | notModelled (mnemonic : String)
  deriving DecidableEq, Repr

end Sys2Proof.Machine
end

