-- ==== Sys2Proof/Machine/Flags.lean ====
section
/-! DEFINITION. The block has no condition flags (spec/10_state.md R23): its only result indicator is the
3-bit `STATUS` of a response.  The status codes of spec/60_exceptions.md R200. -/

namespace Sys2Proof.Machine

/-- The error kinds, by the name R200 raises them under. -/
inductive ErrorKind where
  /-- `ILEN`: the length is outside [1,11]. -/
  | invalidLength
  /-- `ICHAR`: a symbol is not a member of the alphabet. -/
  | invalidCharacter
  /-- `RANGE`: the value is out of range for the length. -/
  | valueOutOfRange
  /-- `ILLEGAL`: reserved `OP` or a nonzero reserved bit. -/
  | illegalCommand
  deriving DecidableEq, Repr

/-- `STATUS = OK` (R200). -/
def statusOk : BitVec 3 := 0#3

/-- The `STATUS` code of an error (R200).  Codes 5, 6 and 7 are never produced. -/
def errorStatus : ErrorKind → BitVec 3
  | .invalidLength => 1#3
  | .invalidCharacter => 2#3
  | .valueOutOfRange => 3#3
  | .illegalCommand => 4#3

end Sys2Proof.Machine
end

