-- ==== Sys2Proof/Machine/Ops.lean ====
section
/-! DEFINITION. The operations every meaning and every clock edge share: the response word (spec/30_encoding.md
R66, R67), taking an error (spec/60_exceptions.md R203), the ports (spec/10_state.md R27) and what a clock edge
does to the two registers (spec/70_reset_and_hazards.md R230, R233). -/

namespace Sys2Proof.Machine

/-! ### The response word -/

/-- The response word (R66); every bit outside the five fields is 0. -/
def packResponse (r : Response) : Word256 :=
  0#40 ++ lanesBits r.rsym ++ r.rval ++ 0#40 ++ r.rlen ++ 0#5 ++ r.rop ++ 0#5 ++ r.status

/-- `STATUS = rsp[2:0]`. -/
def rspStatus (w : Word256) : BitVec 3 := w.extractLsb' 0 3

/-- `ROP = rsp[10:8]`. -/
def rspRop (w : Word256) : OpCode := w.extractLsb' 8 3

/-- `RLEN = rsp[23:16]`. -/
def rspRlen (w : Word256) : BitVec 8 := w.extractLsb' 16 8

/-- `RVAL = rsp[127:64]`. -/
def rspRval (w : Word256) : Value := w.extractLsb' 64 64

/-- All 11 lanes 0x00 (R67). -/
def noSymbols : Lanes := lanesOf fun _ => 0#8

/-- The response of an operation that succeeds: `STATUS = OK`, `ROP = OP` (R67, R70). -/
def successResponse (op : OpCode) (p : Payload) : Response :=
  { status := statusOk, rop := op, rlen := p.rlen, rval := p.rval, rsym := p.rsym }

/-- The error response: `STATUS = E`, `ROP = OP`, every other bit zero (R203). -/
def errorResponse (op : OpCode) (k : ErrorKind) : Response :=
  { status := errorStatus k, rop := op, rlen := 0#8, rval := 0#64, rsym := noSymbols }

/-- The response of an operation, whichever way it ends (R70). -/
def answer (op : OpCode) : Except ErrorKind Payload → Response
  | .ok p => successResponse op p
  | .error k => errorResponse op k

/-! ### Effects on the state -/

/-- An accepted command's one effect: its response enters `rsp_q`, `rsp_valid_q` becomes 1 (R233), and the
index of commands advances by exactly 1 (R22). -/
def respond (rsp : Word256) (s : State) : State :=
  { s with rspQ := rsp, rspValidQ := true, cmdIndex := s.cmdIndex + 1 }

/-- Taking an error, the only "trap" the block has: the error response is the command's response, and
"nothing else changes.  No state is saved, no mode changes, no handler is entered" (R203). -/
def raiseError (op : OpCode) (k : ErrorKind) (s : State) : State :=
  respond (packResponse (errorResponse op k)) s

/-- Return from an error: "there is no return-from-error operation" (R204).  An error response is consumed
like any other, which clears `rsp_valid_q` and leaves `rsp_q` its stale value (R233). -/
def consumeResponse (s : State) : State := { s with rspValidQ := false }

/-- A reset edge: both registers cleared (R230); a pending response is discarded (R232).  The ROMs are
constant and the command that lost its response stays accepted. -/
def resetEdge (s : State) : State := { s with rspValidQ := false, rspQ := 0#256 }

/-- How a meaning ends: a payload is answered, a raised error is taken. -/
def deliver (op : OpCode) (r : Except ErrorKind Payload) (s : State) : Host.Outcome State Fault Refusal :=
  match r with
  | .ok p => .next (respond (packResponse (successResponse op p)) s)
  | .error k => .next (raiseError op k s)

/-! ### The ports (R27) -/

/-- The inputs just before the coming edge. -/
def pins (s : State) : PortInputs := s.inputs.headD PortInputs.idle

/-- Time passes: the cycle whose inputs are `pins` is over. -/
def nextCycle (s : State) : State := { s with inputs := s.inputs.tail }

/-- `cmd_ready = (not rst) and ((not rsp_valid_q) or rsp_ready)`. -/
def cmdReady (s : State) : Bool := !(pins s).rst && (!s.rspValidQ || (pins s).rspReady)

/-- `rsp_valid = rsp_valid_q`. -/
def rspValid (s : State) : Bool := s.rspValidQ

/-- `rsp_data = rsp_q`. -/
def rspData (s : State) : Word256 := s.rspQ

/-- A command is accepted at the coming edge: `cmd_valid = 1` and `cmd_ready = 1`. -/
def accepts (s : State) : Bool := (pins s).cmdValid && cmdReady s

/-- A response is consumed at the coming edge: `rsp_valid = 1` and `rsp_ready = 1`. -/
def consumes (s : State) : Bool := rspValid s && (pins s).rspReady

end Sys2Proof.Machine
end

