-- ==== Sys2Proof/Machine/Lut.lean ====
section
/-! DEFINITION. The alphabet bijection LUT of spec/40_alphabet_lut.md: its two tables (R26, R101, R102) and the
commands LSYM (R104) and LVAL (R105).  That the two directions are perfect inverses, as lookups and through the
commands (R106), is a consequence of `fwd`, `inv`, `execLsym` and `execLval`; nothing else codes it. -/

namespace Sys2Proof.Machine

/-- `FWD_ROM`: 64 entries of 8 bits, `FWD_ROM[v] = ALPHABET[v]` (R26). -/
def fwdRom (a : Alphabet) : Vector Symbol 64 := a

/-- Entry c of `INV_ROM`: `{1, v}` when `ALPHABET[v] = c`, `{0, 000000}` when no position holds c (R26).
By R100(a) at most one v matches; the lowest is taken (notes/assumptions/8.md). -/
def invRomEntry (a : Alphabet) (c : Symbol) : BitVec 7 :=
  match a.toList.findIdx? (fun x => x == c) with
  | some v => 1#1 ++ BitVec.ofNat 6 v
  | none => 0#7

/-- `INV_ROM`: 256 entries of 7 bits, bit 6 `MEMBER` and bits 5:0 `VALUE` (R26). -/
def invRom (a : Alphabet) : Vector (BitVec 7) 256 :=
  Vector.ofFn fun c => invRomEntry a (BitVec.ofNat 8 c.val)

/-- `Fwd(v) = ALPHABET[v]` (R101); the forward direction of R106. -/
def fwd (a : Alphabet) (v : Digit) : Symbol := (fwdRom a)[v.toNat]'v.isLt

/-- `Inv(c)`: `some v` for `Member(v)`, `none` for `NotMember`, read from entry c of `INV_ROM` (R102); the
inverse direction of R106. -/
def inv (a : Alphabet) (c : Symbol) : Option Digit :=
  if (invRomEntry a c).getLsbD 6 then some ((invRomEntry a c).extractLsb' 0 6) else none

/-- LSYM's result (R104): RANGE for `WIDE = 1 or VAL >= 64`, else the symbol of `VAL[5:0]`. -/
def lsymResult (a : Alphabet) (o : Operands) : Except ErrorKind Payload :=
  if o.wide then .error .valueOutOfRange
  else if 64 ≤ o.val.toNat then .error .valueOutOfRange
  else .ok { rlen := 1#8, rval := 0#64,
             rsym := lanesOf fun i => if i = 0 then fwd a (o.val.extractLsb' 0 6) else 0#8 }

/-- `LSYM` (R104); R106(c) feeds its lane 0 to LVAL. -/
def execLsym (o : Operands) (s : State) : Host.Outcome State Fault Refusal :=
  deliver 2#3 (lsymResult s.alphabet o) s

/-- LVAL's result (R105): ICHAR when lane 0 is not a member, else its 6-bit value. -/
def lvalResult (a : Alphabet) (o : Operands) : Except ErrorKind Payload :=
  match inv a o.sym[0] with
  | none => .error .invalidCharacter
  | some v => .ok { rlen := 1#8, rval := v.setWidth 64, rsym := noSymbols }

/-- `LVAL` (R105); by R106(c) it undoes LSYM. -/
def execLval (o : Operands) (s : State) : Host.Outcome State Fault Refusal :=
  deliver 3#3 (lvalResult s.alphabet o) s

end Sys2Proof.Machine
end

