-- ==== Sys2Proof/Machine/Operands.lean ====
section
/-! DEFINITION. Operand forms: the length and range checks (spec/41_encoder.md R121), the bit-field
extractor (R120, R123), the bit-field composer and its overflow test (spec/42_decoder.md R140, R141, R143,
R145).  Arithmetic is exact on naturals and narrowed at the end (R9, R124, R146). -/

namespace Sys2Proof.Machine

/-- N in [1,11], the check both ENC and DEC make first (R122, R142, R202). -/
def lengthOk (n : Nat) : Bool := decide (Config.nMin ≤ n ∧ n ≤ Config.nMax)

/-- The `N <= 10 and VAL >= 2^(6N)` test of R122, the negation of R121's range for `WIDE = 0`. -/
def tooManyBits (val : Value) (n : Nat) : Bool :=
  decide (n ≤ 10 ∧ 2 ^ (Config.digitW * n) ≤ val.toNat)

/-- `Extract(v, N, i) = (v >> (6 × (N − 1 − i))) & 0x3F`, bits above 63 reading as 0 (R120). -/
def extract (v : Value) (n i : Nat) : Digit :=
  (v >>> (Config.digitW * (n - 1 - i))).setWidth 6

/-- The fixed-position extractor of R123: left-justify in 66 bits, then digit i is `t[65−6i : 60−6i]`. -/
def extractFixed (v : Value) (n i : Nat) : Digit :=
  ((v.setWidth 66 : Raw) <<< (Config.digitW * (11 - n))).extractLsb' (60 - 6 * i) 6

/-- `Compose(d_0, ..)`: left to right, shift the total left by 6 and add the digit (R140). -/
def compose (ds : List Digit) : Nat :=
  ds.foldl (fun acc d => (acc <<< 6) + d.toNat) 0

/-- `Compose` as the `u66` the block computes (R140). -/
def composeRaw (ds : List Digit) : Raw := BitVec.ofNat 66 (compose ds)

/-- The 66-bit word of R145: digit i at bits `[65−6i : 60−6i]`, zero below the last digit. -/
def composeFixedWord : List Digit → Nat → Raw
  | [], _ => 0#66
  | d :: ds, i => ((d.setWidth 66 : Raw) <<< (60 - 6 * i)) ||| composeFixedWord ds (i + 1)

/-- The fixed-position composer of R145: `t >> (6 × (11 − N))`. -/
def composeFixed (ds : List Digit) : Raw :=
  composeFixedWord ds 0 >>> (Config.digitW * (11 - ds.length))

/-- The overflow test of R142: `N = 11 and acc[65:64] != 0` (R141). -/
def overflows (n : Nat) (acc : Raw) : Bool :=
  decide (n = 11 ∧ acc.extractLsb' 64 2 ≠ 0#2)

/-- The incremental overflow check of R143: before each shift the total is tested against 2^58, and the
answer is the total, or `none` where a shift would exceed 64 significant bits. -/
def composeIncremental : List Digit → Nat → Option Nat
  | [], acc => some acc
  | d :: ds, acc => if 2 ^ 58 ≤ acc then none else composeIncremental ds ((acc <<< 6) + d.toNat)

/-- The symbol codes of the lanes in use, `SYM[0..N−1]` in order (R69, R142). -/
def usedLanes (sym : Lanes) (n : Nat) : List Symbol := sym.toList.take n

end Sys2Proof.Machine
end

