-- ==== Sys2Proof/Machine/Decoder.lean ====
section
/-! DEFINITION. The decoder: DEC (spec/42_decoder.md R142). -/

namespace Sys2Proof.Machine

/-- Every lane in use is looked up; the digits, or `none` if some lane is not a member (R142). -/
def lookupAll (a : Alphabet) : List Symbol → Option (List Digit)
  | [] => some []
  | c :: cs =>
    match inv a c, lookupAll a cs with
    | some v, some vs => some (v :: vs)
    | _, _ => none

/-- DEC's result (R142): the length check, then the lookups, then the overflow test for N = 11 (R202). -/
def decResult (a : Alphabet) (o : Operands) : Except ErrorKind Payload :=
  if !lengthOk o.len.toNat then .error .invalidLength
  else
    match lookupAll a (usedLanes o.sym o.len.toNat) with
    | none => .error .invalidCharacter
    | some ds =>
      if overflows o.len.toNat (composeRaw ds) then .error .valueOutOfRange
      else .ok { rlen := o.len, rval := (composeRaw ds).extractLsb' 0 64, rsym := noSymbols }

/-- `DEC` (R142). -/
def execDec (o : Operands) (s : State) : Host.Outcome State Fault Refusal :=
  deliver 1#3 (decResult s.alphabet o) s

end Sys2Proof.Machine
end

