-- ==== Sys2Proof/Machine/Encoder.lean ====
section
/-! DEFINITION. The encoder: ENC (spec/41_encoder.md R122). -/

namespace Sys2Proof.Machine

/-- Lane i of an encoded string: digit i's symbol for i < N, 0x00 in the unused lanes (R122, R67). -/
def encodedLane (a : Alphabet) (val : Value) (n i : Nat) : Symbol :=
  if i < n then fwd a (extract val n i) else 0#8

/-- ENC's result (R122): the length check, then `WIDE`, then the range for N <= 10, then the digits. -/
def encResult (a : Alphabet) (o : Operands) : Except ErrorKind Payload :=
  if !lengthOk o.len.toNat then .error .invalidLength
  else if o.wide then .error .valueOutOfRange
  else if tooManyBits o.val o.len.toNat then .error .valueOutOfRange
  else .ok { rlen := o.len, rval := 0#64, rsym := lanesOf (encodedLane a o.val o.len.toNat) }

/-- `ENC` (R122). -/
def execEnc (o : Operands) (s : State) : Host.Outcome State Fault Refusal :=
  deliver 0#3 (encResult s.alphabet o) s

end Sys2Proof.Machine
end

