-- ==== Sys2Proof/Machine/Reserved.lean ====
section
/-! DEFINITION. The reserved opcodes 4 to 7: each gives status ILLEGAL "whatever its other bits"
(spec/60_exceptions.md R201, opcode table). -/

namespace Sys2Proof.Machine

/-- `RESERVED_OP4` (R201). -/
def execReservedOp4 (_cmd : Word256) (s : State) : Host.Outcome State Fault Refusal :=
  .next (raiseError 4#3 .illegalCommand s)

/-- `RESERVED_OP5` (R201). -/
def execReservedOp5 (_cmd : Word256) (s : State) : Host.Outcome State Fault Refusal :=
  .next (raiseError 5#3 .illegalCommand s)

/-- `RESERVED_OP6` (R201). -/
def execReservedOp6 (_cmd : Word256) (s : State) : Host.Outcome State Fault Refusal :=
  .next (raiseError 6#3 .illegalCommand s)

/-- `RESERVED_OP7` (R201). -/
def execReservedOp7 (_cmd : Word256) (s : State) : Host.Outcome State Fault Refusal :=
  .next (raiseError 7#3 .illegalCommand s)

end Sys2Proof.Machine
end

