-- ==== Sys2Proof/Machine/Dispatch.lean ====
section
/-! DEFINITION. The meaning of an accepted command, one arm per row of spec/opcode_table.json. -/

namespace Sys2Proof.Machine

def exec (i : Instr) (s : State) : Host.Outcome State Fault Refusal :=
  match i with
  | .enc o => Sys2Proof.Machine.execEnc o s
  | .dec o => Sys2Proof.Machine.execDec o s
  | .lsym o => Sys2Proof.Machine.execLsym o s
  | .lval o => Sys2Proof.Machine.execLval o s
  | .reservedOp4 cmd => Sys2Proof.Machine.execReservedOp4 cmd s
  | .reservedOp5 cmd => Sys2Proof.Machine.execReservedOp5 cmd s
  | .reservedOp6 cmd => Sys2Proof.Machine.execReservedOp6 cmd s
  | .reservedOp7 cmd => Sys2Proof.Machine.execReservedOp7 cmd s

end Sys2Proof.Machine
end

