-- ==== Sys2Proof/Machine/ClockEdge.lean ====
section
/-! DEFINITION. What one rising edge of `clk` does (spec/70_reset_and_hazards.md R233). -/

namespace Sys2Proof.Machine

/-- The command sampled at the accepting edge is performed: its row's meaning, or, for a word that is no
row, the IllegalCommand error (R65, R70, R201). -/
def performCommand (cmd : Word256) (s : State) : Host.Outcome State Fault Refusal :=
  match decode cmd with
  | .ok i => exec i s
  | .error (.reservedBits op) => .next (raiseError op .illegalCommand s)

/-- One rising edge of `clk`, "with all inputs and `cmd_ready` taken as they stand just before the edge"
(R233): reset, else accept (and consume, if a response is taken at the same edge), else consume, else
nothing changes. -/
def clockEdge (s : State) : Host.Outcome State Fault Refusal :=
  if (pins s).rst then .next (resetEdge (nextCycle s))
  else if accepts s then performCommand (pins s).cmdData (nextCycle s)
  else if consumes s then .next (consumeResponse (nextCycle s))
  else .next (nextCycle s)

/-- The inputs of a host that presents a command and takes whatever response is pending, so that the
command is accepted at that very edge (R27). -/
def presentCommand (cmd : Word256) : PortInputs :=
  { rst := false, cmdValid := true, cmdData := cmd, rspReady := true }

end Sys2Proof.Machine
end

