-- ==== Sys2Proof/Machine/Step.lean ====
section
/-! DEFINITION. One step of the machine is one rising edge of `clk` (spec/10_state.md R20). -/

namespace Sys2Proof.Machine

/-- One rising edge of `clk` (R20, R233). -/
def step (s : State) : Host.Outcome State Fault Refusal := clockEdge s

/-- The block fetches nothing (R22): a command comes from the host.  The inputs of the coming cycle are
those of a host that presents this command word; all else stands (notes/assumptions/4.md). -/
def State.withFetchWord (s : State) (nbits w : Nat) : State :=
  { s with inputs := presentCommand (tableWord nbits w) :: s.inputs.tail }

end Sys2Proof.Machine
end

