-- ==== Sys2Proof/Machine/Transaction.lean ====
section
/-! DEFINITION. The transaction level: `Exec(cmd)` as spec/30_encoding.md R70 writes it, a function of one
command word and the alphabet (R28).  The clock edge reaches the same responses through `decode` and `exec`;
that the two agree is a statement, not a definition. -/

namespace Sys2Proof.Machine

/-- `Exec(cmd)` (R70): the reserved-bit check first, then the operation `OP` selects. -/
def transact (a : Alphabet) (cmd : Word256) : Word256 :=
  let op := cmdOp cmd
  if cmdRsvd0 cmd ≠ 0 ∨ cmdRsvd1 cmd ≠ 0 ∨ cmdRsvd2 cmd ≠ 0 then
    packResponse (errorResponse op .illegalCommand)
  else if op = 0#3 then packResponse (answer op (encResult a (operandsOf cmd)))
  else if op = 1#3 then packResponse (answer op (decResult a (operandsOf cmd)))
  else if op = 2#3 then packResponse (answer op (lsymResult a (operandsOf cmd)))
  else if op = 3#3 then packResponse (answer op (lvalResult a (operandsOf cmd)))
  else packResponse (errorResponse op .illegalCommand)

end Sys2Proof.Machine
end

