-- ==== Sys2Proof/Machine/Presentation.lean ====
section
/-! DEFINITION. The host's side of the interface: how it presents integers (spec/30_encoding.md R62), lengths
(R64) and characters (R63), the text syntax of commands (R74), and the source's functions in terms of
commands (R75).  The clock edge does not use this file; statements about the source's functions do. -/

namespace Sys2Proof.Machine

/-- `WIDE` for the integer X: 1 exactly when X < 0 or X >= 2^64 (R62). -/
def presentWide (x : Int) : Bool := decide (x < 0 ∨ 2 ^ 64 ≤ x)

/-- `VAL` for the integer X: X mod 2^64 for X >= 0, any value (free) for X < 0 (R62). -/
def presentVal (x : Int) : Value := if x < 0 then Config.negativeVal x else BitVec.ofInt 64 x

/-- `LEN` for a length: saturated to 255 above and to 0 below (R64). -/
def presentLen (n : Int) : BitVec 8 :=
  if n < 0 then 0#8 else if 255 ≤ n then 255#8 else BitVec.ofInt 8 n

/-- The lane code of a character: its code point up to 0x7F, 0xFF for any other (R63). -/
def presentChar (c : Char) : Symbol := if c.toNat ≤ 0x7F then BitVec.ofNat 8 c.toNat else 0xFF#8

/-- The lanes of a string: its first 11 characters, all other lanes 0x00 (R63, R74). -/
def presentString (s : List Char) : Lanes := lanesOf fun i => ((s[i]?).map presentChar).getD 0#8

/-- `ENC <n>, <x>` (R74). -/
def asmEnc (n x : Int) : Word256 :=
  packCommand 0#3 { len := presentLen n, wide := presentWide x, val := presentVal x, sym := noSymbols }

/-- `DEC "<string>"` (R74). -/
def asmDec (s : List Char) : Word256 :=
  packCommand 1#3 { len := presentLen s.length, wide := false, val := 0#64, sym := presentString s }

/-- `DEC <n>, "<lanes>"`: a LEN given apart from the lanes (R74). -/
def asmDecLanes (n : BitVec 8) (lanes : List Char) : Word256 :=
  packCommand 1#3 { len := n, wide := false, val := 0#64, sym := presentString lanes }

/-- `LSYM <x>` (R74). -/
def asmLsym (x : Int) : Word256 :=
  packCommand 2#3 { len := 0#8, wide := presentWide x, val := presentVal x, sym := noSymbols }

/-- `LVAL '<c>'` (R74). -/
def asmLval (c : Char) : Word256 :=
  packCommand 3#3 { len := 0#8, wide := false, val := 0#64, sym := presentString [c] }

/-- `.cmd <W0>, <W1>, <W2>, <W3>`: four 64-bit words taken as they stand (R60, R74). -/
def asmWords (w0 w1 w2 w3 : BitVec 64) : Word256 := w3 ++ w2 ++ w1 ++ w0

/-- The string `RSYM[0..RLEN−1]` of a response (R75). -/
def rspString (w : Word256) : List Symbol := (List.range (rspRlen w).toNat).map (wordLane w)

/-- The source's `encode(value, length)`: the string when STATUS = OK, else the STATUS (R75). -/
def sourceEncode (a : Alphabet) (value length : Int) : Except (BitVec 3) (List Symbol) :=
  let rsp := transact a (asmEnc length value)
  if rspStatus rsp = statusOk then .ok (rspString rsp) else .error (rspStatus rsp)

/-- The source's `decode(s)`: `RVAL` when STATUS = OK, else the STATUS (R75). -/
def sourceDecode (a : Alphabet) (s : List Char) : Except (BitVec 3) Value :=
  let rsp := transact a (asmDec s)
  if rspStatus rsp = statusOk then .ok (rspRval rsp) else .error (rspStatus rsp)

/-- The source's Alphabet lookup value→char: `RSYM[0]` when STATUS = OK, else the STATUS (R75, R106). -/
def sourceSymbol (a : Alphabet) (value : Int) : Except (BitVec 3) Symbol :=
  let rsp := transact a (asmLsym value)
  if rspStatus rsp = statusOk then .ok (wordLane rsp 0) else .error (rspStatus rsp)

/-- The source's Alphabet lookup char→value: `RVAL[5:0]` when STATUS = OK, else the STATUS, which is ICHAR
for "not a member" (R75, R106). -/
def sourceValue (a : Alphabet) (c : Char) : Except (BitVec 3) Digit :=
  let rsp := transact a (asmLval c)
  if rspStatus rsp = statusOk then .ok ((rspRval rsp).extractLsb' 0 6) else .error (rspStatus rsp)

/-- The host of R75 that mimics the software: for each of the four functions, whatever its result type, every
nonzero STATUS is one generic error, `none`. -/
def genericError {α : Type} (r : Except (BitVec 3) α) : Option α :=
  match r with
  | .ok v => some v
  | .error _ => none

end Sys2Proof.Machine
end

