-- ==== Sys2Proof/Safety.lean ====
section
/-! DEFINITION. What claims are made in: the invariant of the response register (spec/30_encoding.md R66, R67,
spec/60_exceptions.md R200, R203) and the observation of a run (spec/70_reset_and_hazards.md R240). -/

namespace Sys2Proof.Machine

/-- A symbol is a member of the alphabet: some position holds it (R102). -/
def isMember (a : Alphabet) (c : Symbol) : Prop := ∃ v : Digit, fwd a v = c

/-- A 256-bit word that may stand as a response (R66, R67, R200, R203), read off its bits alone. -/
structure ResponseWellFormed (a : Alphabet) (w : Word256) : Prop where
  /-- R66: the bits outside the five fields are always 0. -/
  zeros : w.extractLsb' 3 5 = 0#5 ∧ w.extractLsb' 11 5 = 0#5 ∧ w.extractLsb' 24 40 = 0#40 ∧
    w.extractLsb' 216 40 = 0#40
  /-- R200: STATUS 5, 6 and 7 are never produced. -/
  status : (rspStatus w).toNat ≤ 4
  /-- R203: in an error response every other field is zero. -/
  error : rspStatus w ≠ 0#3 →
    rspRlen w = 0#8 ∧ rspRval w = 0#64 ∧ ∀ i < 11, wordLane w i = 0#8
  /-- R67, R200: only ENC, DEC, LSYM and LVAL succeed, with RLEN in [1,11]. -/
  success : rspStatus w = 0#3 →
    (rspRop w).toNat ≤ 3 ∧ 1 ≤ (rspRlen w).toNat ∧ (rspRlen w).toNat ≤ 11
  /-- R67: a string result is RLEN members and then 0x00, with RVAL 0. -/
  string : rspStatus w = 0#3 → rspRop w = 0#3 ∨ rspRop w = 2#3 →
    rspRval w = 0#64 ∧ (∀ i < (rspRlen w).toNat, isMember a (wordLane w i)) ∧
    ∀ i < 11, (rspRlen w).toNat ≤ i → wordLane w i = 0#8
  /-- R67, R121: an integer result fits its length, with all lanes 0x00. -/
  integer : rspStatus w = 0#3 → rspRop w = 1#3 ∨ rspRop w = 3#3 →
    (rspRval w).toNat < 2 ^ (6 * (rspRlen w).toNat) ∧ ∀ i < 11, wordLane w i = 0#8
  /-- R67: the LUT commands answer one character. -/
  single : rspStatus w = 0#3 → rspRop w = 2#3 ∨ rspRop w = 3#3 → rspRlen w = 1#8

/-- The invariant: the alphabet is admissible (R100), and `rsp_q` holds a well-formed response or, when
none is presented, the zeros of reset (R30). -/
def Inv (s : State) : Prop :=
  Alphabet.Admissible s.alphabet ∧
  (ResponseWellFormed s.alphabet s.rspQ ∨ (s.rspValidQ = false ∧ s.rspQ = 0#256))

/-! ### The four error conditions of R202, on the bits of a command word -/

/-- R201: a reserved bit is set, or `OP` is 4, 5, 6 or 7. -/
def illegalWord (cmd : Word256) : Prop :=
  cmd.extractLsb' 3 5 ≠ 0#5 ∨ cmd.extractLsb' 17 47 ≠ 0#47 ∨ cmd.extractLsb' 216 40 ≠ 0#40 ∨
    4 ≤ (cmd.extractLsb' 0 3).toNat

/-- R202 item 2: ENC or DEC with LEN outside [1,11]. -/
def badLength (cmd : Word256) : Prop :=
  (cmd.extractLsb' 0 3 = 0#3 ∨ cmd.extractLsb' 0 3 = 1#3) ∧
    ((cmd.extractLsb' 8 8).toNat < 1 ∨ 11 < (cmd.extractLsb' 8 8).toNat)

/-- R202 item 3: DEC with some lane 0..N−1 not a member, or LVAL with lane 0 not a member. -/
def badCharacter (a : Alphabet) (cmd : Word256) : Prop :=
  (cmd.extractLsb' 0 3 = 1#3 ∧
    ∃ i < (cmd.extractLsb' 8 8).toNat, ¬ isMember a (cmd.extractLsb' (128 + 8 * i) 8)) ∨
  (cmd.extractLsb' 0 3 = 3#3 ∧ ¬ isMember a (cmd.extractLsb' 128 8))

/-- The value of an 11-digit string, digit 0 most significant (R140). -/
def value11 (d : Nat → Digit) : Nat := ∑ k ∈ Finset.range 11, (d k).toNat * 64 ^ (10 - k)

/-- R202 item 4: the value is out of range (ENC, LSYM) or overflows (DEC, N = 11). -/
def badRange (a : Alphabet) (cmd : Word256) : Prop :=
  (cmd.extractLsb' 0 3 = 0#3 ∧
    (cmd.getLsbD 16 = true ∨ ((cmd.extractLsb' 8 8).toNat ≤ 10 ∧
      2 ^ (6 * (cmd.extractLsb' 8 8).toNat) ≤ (cmd.extractLsb' 64 64).toNat))) ∨
  (cmd.extractLsb' 0 3 = 2#3 ∧ (cmd.getLsbD 16 = true ∨ 64 ≤ (cmd.extractLsb' 64 64).toNat)) ∨
  (cmd.extractLsb' 0 3 = 1#3 ∧ cmd.extractLsb' 8 8 = 11#8 ∧
    ∃ d : Nat → Digit, (∀ i < 11, fwd a (d i) = cmd.extractLsb' (128 + 8 * i) 8) ∧ 2 ^ 64 ≤ value11 d)

/-! ### Runs (R48, R240) -/

/-- The state after k edges; a step always answers one (R205). -/
def stateAfter : Nat → State → State
  | 0, s => s
  | k + 1, s =>
    match step s with
    | .next t => stateAfter k t
    | .fault _ => s
    | .refused _ => s

/-- The commands accepted in the coming k edges, in order (R27). -/
def acceptedIn : Nat → State → List Word256
  | 0, _ => []
  | k + 1, s => (if accepts s then [(pins s).cmdData] else []) ++ acceptedIn k (stateAfter 1 s)

/-- The responses consumed in the coming k edges, in order: the observation of a run (R27, R240). -/
def consumedIn : Nat → State → List Word256
  | 0, _ => []
  | k + 1, s => (if consumes s then [rspData s] else []) ++ consumedIn k (stateAfter 1 s)

/-- The response presented and not yet consumed, if there is one (R27). -/
def pendingResponse (s : State) : List Word256 := if rspValid s then [rspData s] else []

/-- No edge of the coming k is a reset edge. -/
def noResetIn (k : Nat) (s : State) : Prop := ∀ p ∈ s.inputs.take k, p.rst = false

end Sys2Proof.Machine
end

