-- ==== Sys2Proof/Certificates/Slice0/Obligations.lean ====
section
/-! DEFINITION. The statements about the model.  Each docstring names the rule of spec/ it formalises. -/

open Sys2Proof Sys2Proof.Machine

/-! ### Encoding (spec/30_encoding.md) -/

/-- Decode and encode agree: every well-formed instruction, with every operand at every value its field
admits, is read back from its own word (R60, R68). -/
def Obligations.DecodeOfEncodeIsTheInstruction : Prop :=
  ∀ i : Instr, i.wellFormed = true → decode (encode i) = .ok i

/-- The other direction: a word that decodes is the one encoding of the instruction it decodes to, so the
decoder drops no bit of it (R60, R68, R72). -/
def Obligations.DecodedWordIsTheInstructionsEncoding : Prop :=
  ∀ (cmd : Word256) (i : Instr), decode cmd = .ok i → i.wellFormed = true ∧ encode i = cmd

/-- The decoder refuses exactly the words whose `OP` is ENC, DEC, LSYM or LVAL and that have a reserved bit
set; every word with a reserved `OP` is a row of the table.  R65 and R71 say that all of these words give
ILLEGAL; which of them are rows and which the decoder refuses is the model's grouping, notes/assumptions/6.md
(DEDUCED from the opcode table's masks). -/
def Obligations.DecoderRefusesExactlyReservedBitWords : Prop :=
  ∀ cmd : Word256, (∃ e, decode cmd = .error e) ↔
    (cmd.extractLsb' 0 3).toNat < 4 ∧
      ¬ (cmd.extractLsb' 3 5 = 0#5 ∧ cmd.extractLsb' 17 47 = 0#47 ∧ cmd.extractLsb' 216 40 = 0#40)

/-- Words written out from the field table of R60: `ENC 3, 0x12345` (LEN 3 at bit 8, VAL at bit 64),
`DEC "SNF"` (lanes 0x53 0x4E 0x46 from bit 128 up), `LSYM 2^64+5` (WIDE at bit 16), OP 5 and `LVAL '_'`
decode; `ENC 1, 0` with bit 3 set is refused, a decoder error by the model's grouping of the illegal words,
notes/assumptions/6.md (DEDUCED). -/
def Obligations.WordsWrittenFromTheFieldTableDecode : Prop :=
  decode 0x123450000000000000300#256 =
    .ok (.enc { len := 3#8, wide := false, val := 0x12345#64, sym := lanesOf fun _ => 0#8 }) ∧
  decode 0x464E5300000000000000000000000000000301#256 =
    .ok (.dec { len := 3#8, wide := false, val := 0#64,
                sym := #v[0x53#8, 0x4E#8, 0x46#8, 0#8, 0#8, 0#8, 0#8, 0#8, 0#8, 0#8, 0#8] }) ∧
  decode 0x50000000000010002#256 =
    .ok (.lsym { len := 0#8, wide := true, val := 5#64, sym := lanesOf fun _ => 0#8 }) ∧
  decode 0x5#256 =
    .ok (.reservedOp5 5#256) ∧
  decode 0x5F00000000000000000000000000000003#256 =
    .ok (.lval { len := 0#8, wide := false, val := 0#64,
                 sym := #v[0x5F#8, 0#8, 0#8, 0#8, 0#8, 0#8, 0#8, 0#8, 0#8, 0#8, 0#8] }) ∧
  decode 0x108#256 = .error (.reservedBits 0#3)

/-- Where every operand comes from and what `OP` selects: with the reserved fields zero, `OP` 0 to 3 decode
to ENC, DEC, LSYM and LVAL with LEN, WIDE, VAL and lane i read from bits 15:8, 16, 127:64 and
128+8i+7:128+8i; `OP` 4 to 7 decode to the reserved rows whatever the other bits (R60 to R65, R68, R73). -/
def Obligations.OperandsAndOperationComeFromTheirBits : Prop :=
  ∀ cmd : Word256,
    (cmd.extractLsb' 3 5 = 0#5 → cmd.extractLsb' 17 47 = 0#47 → cmd.extractLsb' 216 40 = 0#40 →
      ∃ o : Operands,
        o.len = cmd.extractLsb' 8 8 ∧ o.wide = cmd.getLsbD 16 ∧ o.val = cmd.extractLsb' 64 64 ∧
        (∀ i (hi : i < 11), o.sym[i] = cmd.extractLsb' (128 + 8 * i) 8) ∧
        (cmd.extractLsb' 0 3 = 0#3 → decode cmd = .ok (.enc o)) ∧
        (cmd.extractLsb' 0 3 = 1#3 → decode cmd = .ok (.dec o)) ∧
        (cmd.extractLsb' 0 3 = 2#3 → decode cmd = .ok (.lsym o)) ∧
        (cmd.extractLsb' 0 3 = 3#3 → decode cmd = .ok (.lval o))) ∧
    (cmd.extractLsb' 0 3 = 4#3 → decode cmd = .ok (.reservedOp4 cmd)) ∧
    (cmd.extractLsb' 0 3 = 5#3 → decode cmd = .ok (.reservedOp5 cmd)) ∧
    (cmd.extractLsb' 0 3 = 6#3 → decode cmd = .ok (.reservedOp6 cmd)) ∧
    (cmd.extractLsb' 0 3 = 7#3 → decode cmd = .ok (.reservedOp7 cmd))

/-- The response word's layout: each field at its bits, and every bit outside the fields 0 (R66). -/
def Obligations.ResponseFieldsSitAtTheirBits : Prop :=
  ∀ r : Response,
    (packResponse r).extractLsb' 0 3 = r.status ∧ (packResponse r).extractLsb' 3 5 = 0#5 ∧
    (packResponse r).extractLsb' 8 3 = r.rop ∧ (packResponse r).extractLsb' 11 5 = 0#5 ∧
    (packResponse r).extractLsb' 16 8 = r.rlen ∧ (packResponse r).extractLsb' 24 40 = 0#40 ∧
    (packResponse r).extractLsb' 64 64 = r.rval ∧
    (∀ i (hi : i < 11), (packResponse r).extractLsb' (128 + 8 * i) 8 = r.rsym[i]) ∧
    (packResponse r).extractLsb' 216 40 = 0#40

/-! ### The operations: results and completion -/

/-- ENC, whole (R122): ILEN for LEN outside [1,11]; else RANGE for `WIDE = 1` or a value of more than 6N
bits at N <= 10; else OK, with digit i of the big-endian base-64 representation, as a symbol, in lane i < N
and 0x00 in the other lanes.  In each case it answers a next state that differs from the state in the
response register, its valid bit and the command index (the model's, R22) alone. -/
def Obligations.EncAnswersTheDigitsOrTheError : Prop :=
  ∀ (o : Operands) (s : State),
    (o.len.toNat < 1 ∨ 11 < o.len.toNat →
      exec (.enc o) s =
        .next { s with rspQ := 0x001#256, rspValidQ := true, cmdIndex := s.cmdIndex + 1 }) ∧
    (1 ≤ o.len.toNat → o.len.toNat ≤ 11 →
      (o.wide = true ∨ (o.len.toNat ≤ 10 ∧ 2 ^ (6 * o.len.toNat) ≤ o.val.toNat)) →
      exec (.enc o) s =
        .next { s with rspQ := 0x003#256, rspValidQ := true, cmdIndex := s.cmdIndex + 1 }) ∧
    (1 ≤ o.len.toNat → o.len.toNat ≤ 11 →
      o.wide = false → (o.len.toNat ≤ 10 → o.val.toNat < 2 ^ (6 * o.len.toNat)) →
      exec (.enc o) s =
        .next { s with
          rspQ := packResponse {
            status := 0#3, rop := 0#3, rlen := o.len, rval := 0#64,
            rsym := lanesOf fun i =>
              if i < o.len.toNat then
                fwd s.alphabet (BitVec.ofNat 6 (o.val.toNat / 64 ^ (o.len.toNat - 1 - i)))
              else 0#8 }
          rspValidQ := true, cmdIndex := s.cmdIndex + 1 })

/-- DEC, whole (R142): ILEN for LEN outside [1,11]; else ICHAR if some lane 0..N−1 is not a member; else,
with d_i the digit whose symbol lane i holds, RANGE when N = 11 and Σ d_i × 64^(N−1−i) is 2^64 or more, and
OK with that sum as RVAL otherwise.  In each case it answers a next state that differs from the state in the
response register, its valid bit and the command index alone. -/
def Obligations.DecAnswersTheValueOrTheError : Prop :=
  ∀ (o : Operands) (s : State),
    (o.len.toNat < 1 ∨ 11 < o.len.toNat →
      exec (.dec o) s =
        .next { s with rspQ := 0x101#256, rspValidQ := true, cmdIndex := s.cmdIndex + 1 }) ∧
    (1 ≤ o.len.toNat → o.len.toNat ≤ 11 →
      (∃ i, ∃ hi : i < 11, i < o.len.toNat ∧ ¬ isMember s.alphabet o.sym[i]) →
      exec (.dec o) s =
        .next { s with rspQ := 0x102#256, rspValidQ := true, cmdIndex := s.cmdIndex + 1 }) ∧
    (Alphabet.Admissible s.alphabet → 1 ≤ o.len.toNat → o.len.toNat ≤ 11 →
      ∀ d : Nat → Digit,
        (∀ i (hi : i < 11), i < o.len.toNat → fwd s.alphabet (d i) = o.sym[i]) →
        (o.len.toNat = 11 → 2 ^ 64 ≤ value11 d →
          exec (.dec o) s =
            .next { s with rspQ := 0x103#256, rspValidQ := true, cmdIndex := s.cmdIndex + 1 }) ∧
        ((o.len.toNat = 11 → value11 d < 2 ^ 64) →
          exec (.dec o) s =
            .next { s with
              rspQ := packResponse {
                status := 0#3, rop := 1#3, rlen := o.len,
                rval := BitVec.ofNat 64
                  (∑ k ∈ Finset.range o.len.toNat, (d k).toNat * 64 ^ (o.len.toNat - 1 - k)),
                rsym := lanesOf fun _ => 0#8 }
              rspValidQ := true, cmdIndex := s.cmdIndex + 1 }))

/-- LSYM, whole (R104): RANGE for `WIDE = 1` or VAL >= 64, else OK with the symbol at position VAL in lane
0.  In each case it answers a next state that differs in the response register, its valid bit and the
command index alone. -/
def Obligations.LsymAnswersTheSymbolOrRange : Prop :=
  ∀ (o : Operands) (s : State),
    (o.wide = true ∨ 64 ≤ o.val.toNat →
      exec (.lsym o) s =
        .next { s with rspQ := 0x203#256, rspValidQ := true, cmdIndex := s.cmdIndex + 1 }) ∧
    (∀ v : Digit, o.wide = false → o.val.toNat = v.toNat →
      exec (.lsym o) s =
        .next { s with
          rspQ := packResponse {
            status := 0#3, rop := 2#3, rlen := 1#8, rval := 0#64,
            rsym := lanesOf fun i => if i = 0 then fwd s.alphabet v else 0#8 }
          rspValidQ := true, cmdIndex := s.cmdIndex + 1 })

/-- LVAL, whole (R105): ICHAR when lane 0 is not a member, else OK with the 6-bit value, zero-extended, as
RVAL.  In each case it answers a next state that differs in the response register, its valid bit and the
command index alone. -/
def Obligations.LvalAnswersTheValueOrIchar : Prop :=
  ∀ (o : Operands) (s : State),
    (¬ isMember s.alphabet o.sym[0] →
      exec (.lval o) s =
        .next { s with rspQ := 0x302#256, rspValidQ := true, cmdIndex := s.cmdIndex + 1 }) ∧
    (∀ v : Digit, Alphabet.Admissible s.alphabet → fwd s.alphabet v = o.sym[0] →
      exec (.lval o) s =
        .next { s with
          rspQ := packResponse {
            status := 0#3, rop := 3#3, rlen := 1#8, rval := BitVec.ofNat 64 v.toNat,
            rsym := lanesOf fun _ => 0#8 }
          rspValidQ := true, cmdIndex := s.cmdIndex + 1 })

/-- RESERVED_OP4 to RESERVED_OP7: whatever the other bits of the word, the error response ILLEGAL with the
`OP` copied; the next state differs in the response register, its valid bit and the command index alone
(R201). -/
def Obligations.ReservedOpcodesAnswerIllegal : Prop :=
  ∀ (cmd : Word256) (s : State),
    exec (.reservedOp4 cmd) s =
      .next { s with rspQ := 0x404#256, rspValidQ := true, cmdIndex := s.cmdIndex + 1 } ∧
    exec (.reservedOp5 cmd) s =
      .next { s with rspQ := 0x504#256, rspValidQ := true, cmdIndex := s.cmdIndex + 1 } ∧
    exec (.reservedOp6 cmd) s =
      .next { s with rspQ := 0x604#256, rspValidQ := true, cmdIndex := s.cmdIndex + 1 } ∧
    exec (.reservedOp7 cmd) s =
      .next { s with rspQ := 0x704#256, rspValidQ := true, cmdIndex := s.cmdIndex + 1 }

/-- The frame of ENC, DEC, LSYM, LVAL and the four reserved rows: each answers a next state in which the
alphabet (the ROMs) and the host's coming inputs are unchanged, one response stands and is valid, and the
command index has advanced by exactly 1 (R22, R24, R25, R48). -/
def Obligations.EveryInstructionWritesOnlyItsResponse : Prop :=
  ∀ (i : Instr) (s : State), ∃ t, exec i s = .next t ∧
    t.alphabet = s.alphabet ∧ t.inputs = s.inputs ∧ t.rspValidQ = true ∧ t.cmdIndex = s.cmdIndex + 1

/-- IllegalCommand (R201): an accepted word with a bit of cmd[7:3], cmd[63:17] or cmd[255:216] set, or with
`OP` 4 to 7, gets the error response with `STATUS = 4` and `ROP = OP`, and nothing else is recorded (R233 for
`rsp_valid_q`).  That the index (R22) is a field that advances here is notes/assumptions/3.md (DEDUCED), and
that one entry of the input list is used up is notes/assumptions/2.md (DESIGN CHOICE). -/
def Obligations.IllegalCommandRecordsStatusAndOpOnly : Prop :=
  ∀ s : State, accepts s = true → illegalWord (pins s).cmdData →
    step s = .next { s with
      rspQ := BitVec.ofNat 256 (4 + 256 * ((pins s).cmdData.extractLsb' 0 3).toNat)
      rspValidQ := true, cmdIndex := s.cmdIndex + 1, inputs := s.inputs.tail }

/-- Priority among errors (R202): ILLEGAL, then ILEN, then ICHAR, then RANGE; OK when none applies. -/
def Obligations.StatusIsTheFirstErrorThatApplies : Prop :=
  ∀ (a : Alphabet) (cmd : Word256), Alphabet.Admissible a →
    (illegalWord cmd → rspStatus (transact a cmd) = 4#3) ∧
    (¬ illegalWord cmd → badLength cmd → rspStatus (transact a cmd) = 1#3) ∧
    (¬ illegalWord cmd → ¬ badLength cmd → badCharacter a cmd → rspStatus (transact a cmd) = 2#3) ∧
    (¬ illegalWord cmd → ¬ badLength cmd → ¬ badCharacter a cmd → badRange a cmd →
      rspStatus (transact a cmd) = 3#3) ∧
    (¬ illegalWord cmd → ¬ badLength cmd → ¬ badCharacter a cmd → ¬ badRange a cmd →
      rspStatus (transact a cmd) = 0#3)

/-- The error response (R203): whenever `STATUS` is not OK, every bit of the response but `STATUS` and
`ROP` is zero; and every response, on success and on error, has `ROP = OP` (R66, R67). -/
def Obligations.ErrorResponseIsStatusAndOpOnly : Prop :=
  ∀ (a : Alphabet) (cmd : Word256),
    rspRop (transact a cmd) = cmd.extractLsb' 0 3 ∧
    (rspStatus (transact a cmd) ≠ 0#3 →
      transact a cmd = BitVec.ofNat 256
        ((rspStatus (transact a cmd)).toNat + 256 * (cmd.extractLsb' 0 3).toNat))

/-- Every response is well formed: its zero bits, its status codes, RLEN, RVAL and lanes per operation
(R66, R67, R200, R203). -/
def Obligations.EveryResponseIsWellFormed : Prop :=
  ∀ (a : Alphabet) (cmd : Word256), ResponseWellFormed a (transact a cmd)

/-- Which fields each operation reads (R69): two legal words with the same `OP` that agree on the fields
the operation reads get the same response, whatever their ignored fields hold, and a set reserved bit is
ILLEGAL. -/
def Obligations.IgnoredFieldsDoNotChangeTheResponse : Prop :=
  ∀ (a : Alphabet) (c c' : Word256),
    (¬ illegalWord c → ¬ illegalWord c' → c.extractLsb' 0 3 = c'.extractLsb' 0 3 →
      (c.extractLsb' 0 3 = 0#3 → c.extractLsb' 8 8 = c'.extractLsb' 8 8 →
        c.getLsbD 16 = c'.getLsbD 16 → c.extractLsb' 64 64 = c'.extractLsb' 64 64 →
        transact a c = transact a c') ∧
      (c.extractLsb' 0 3 = 1#3 → c.extractLsb' 8 8 = c'.extractLsb' 8 8 →
        ((c.extractLsb' 8 8).toNat ≤ 11 → ∀ i < (c.extractLsb' 8 8).toNat,
          c.extractLsb' (128 + 8 * i) 8 = c'.extractLsb' (128 + 8 * i) 8) →
        transact a c = transact a c') ∧
      (c.extractLsb' 0 3 = 2#3 → c.getLsbD 16 = c'.getLsbD 16 →
        c.extractLsb' 64 64 = c'.extractLsb' 64 64 → transact a c = transact a c') ∧
      (c.extractLsb' 0 3 = 3#3 → c.extractLsb' 128 8 = c'.extractLsb' 128 8 →
        transact a c = transact a c')) ∧
    (c.extractLsb' 3 5 ≠ 0#5 ∨ c.extractLsb' 17 47 ≠ 0#47 ∨ c.extractLsb' 216 40 ≠ 0#40 →
      rspStatus (transact a c) = 4#3)

/-- Law L-3: LSYM x answers what ENC 1, x answers, and LVAL c what DEC 1, "c" answers, on every input and
in every bit but those of `ROP` (R104, R105). -/
def Obligations.LutCommandsEqualOneCharacterCodecs : Prop :=
  ∀ (o : Operands) (s : State), ∃ t u t' u',
    exec (.lsym o) s = .next t ∧ exec (.enc { o with len := 1#8 }) s = .next u ∧
    exec (.lval o) s = .next t' ∧ exec (.dec { o with len := 1#8 }) s = .next u' ∧
    t.rspQ &&& ~~~0x700#256 = u.rspQ &&& ~~~0x700#256 ∧
    t'.rspQ &&& ~~~0x700#256 = u'.rspQ &&& ~~~0x700#256

/-! ### The LUT (spec/40_alphabet_lut.md) -/

/-- The forward lookup (R101, R26): FWD_ROM[v] = ALPHABET[v], and no two values give the same symbol. -/
def Obligations.ForwardLookupIsInjective : Prop :=
  ∀ a : Alphabet, Alphabet.Admissible a →
    (∀ v : Digit, (fwdRom a)[v.toNat]'v.isLt = a[v.toNat]'v.isLt ∧ fwd a v = a[v.toNat]'v.isLt) ∧
    ∀ v w : Digit, fwd a v = fwd a w → v = w

/-- The inverse lookup (R102, R26): Inv(c) = Member(v) exactly when ALPHABET[v] = c, NotMember exactly when
no position holds c; INV_ROM[c] is 1 followed by v for a member and seven zeros for a non-member; exactly
64 of the 256 codes are members and 192 are not; the two directions are perfect inverses. -/
def Obligations.InverseLookupMatchesInvRom : Prop :=
  ∀ a : Alphabet, Alphabet.Admissible a →
    (∀ (c : Symbol) (v : Digit), inv a c = some v ↔ fwd a v = c) ∧
    (∀ c : Symbol, inv a c = none ↔ ∀ v : Digit, fwd a v ≠ c) ∧
    (∀ (c : Symbol) (v : Digit), fwd a v = c → (invRom a)[c.toNat]'c.isLt = 1#1 ++ v) ∧
    (∀ c : Symbol, (∀ v : Digit, fwd a v ≠ c) → (invRom a)[c.toNat]'c.isLt = 0#7) ∧
    (List.range 256).countP (fun c => (inv a (BitVec.ofNat 8 c)).isSome) = 64 ∧
    (List.range 256).countP (fun c => (inv a (BitVec.ofNat 8 c)).isNone) = 192

/-- Laws of the LUT (R106): Inv(Fwd(v)) = Member(v); Inv(c) is NotMember or Fwd(v) = c; and LVAL applied to
the symbol that LSYM v returns gives v. -/
def Obligations.LutDirectionsArePerfectInverses : Prop :=
  ∀ s : State, Alphabet.Admissible s.alphabet →
    (∀ v : Digit, inv s.alphabet (fwd s.alphabet v) = some v) ∧
    (∀ c : Symbol, inv s.alphabet c = none ∨ ∃ v, inv s.alphabet c = some v ∧ fwd s.alphabet v = c) ∧
    (∀ (v : Digit) (o o' : Operands), o.wide = false → o.val.toNat = v.toNat →
      ∃ t, exec (.lsym o) s = .next t ∧
        (o'.sym[0] = wordLane t.rspQ 0 →
          ∃ u, exec (.lval o') t = .next u ∧ rspStatus u.rspQ = 0#3 ∧
            (rspRval u.rspQ).toNat = v.toNat))

/-! ### The extractor and the composer (spec/41_encoder.md, spec/42_decoder.md) -/

/-- The fixed-position extractor equals the extractor for every digit of a value in range, and at N = 11
for every value (R123). -/
def Obligations.FixedPositionExtractorAgrees : Prop :=
  ∀ (v : Value) (n i : Nat), 1 ≤ n → n ≤ 11 → i < n → (v.toNat < 2 ^ (6 * n) ∨ n = 11) →
    extractFixed v n i = extract v n i

/-- The encoded string is the exact base-64 representation of a value in range (R124). -/
def Obligations.EncodedDigitsSumToTheValue : Prop :=
  ∀ (v : Value) (n : Nat), 1 ≤ n → n ≤ 11 → (n ≤ 10 → v.toNat < 2 ^ (6 * n)) →
    ∑ i ∈ Finset.range n, (extract v n i).toNat * 64 ^ (n - 1 - i) = v.toNat

/-- The composer (R140, R146): the accumulator never wraps, below 2^(6N) after N digits, and the u66 it
returns is Σ d_k × 64^(N−1−k). -/
def Obligations.ComposerIsTheExactBase64Sum : Prop :=
  ∀ (d : Nat → Digit) (n : Nat), 1 ≤ n → n ≤ 11 →
    (composeRaw ((List.range n).map d)).toNat =
      ∑ k ∈ Finset.range n, (d k).toNat * 64 ^ (n - 1 - k) ∧
    (composeRaw ((List.range n).map d)).toNat < 2 ^ (6 * n)

/-- The 11-character overflow condition (R141): acc[65:64] is d_0[5:4]; acc[65:64] != 0, acc >= 2^64 and
d_0 >= 16 are one condition at N = 11; for N <= 10 the value is below 2^60, so none of it can happen. -/
def Obligations.OverflowIffFirstDigitAtLeast16 : Prop :=
  (∀ ds : List Digit, (h : ds.length = 11) →
    (((composeRaw ds).extractLsb' 64 2 ≠ 0#2 ↔ 2 ^ 64 ≤ (composeRaw ds).toNat) ∧
     (2 ^ 64 ≤ (composeRaw ds).toNat ↔ 16 ≤ (ds[0]'(by omega)).toNat) ∧
     (composeRaw ds).extractLsb' 64 2 = (ds[0]'(by omega)).extractLsb' 4 2 ∧
     (overflows 11 (composeRaw ds) = true ↔ 16 ≤ (ds[0]'(by omega)).toNat))) ∧
  (∀ ds : List Digit, ds.length ≤ 10 →
    (composeRaw ds).toNat < 2 ^ 60 ∧ overflows ds.length (composeRaw ds) = false)

/-- The fixed-position composer equals the composer, and its overflow test is d_0[5:4] != 0 at N = 11
(R145). -/
def Obligations.FixedPositionComposerAgrees : Prop :=
  ∀ ds : List Digit, (h : 1 ≤ ds.length) → ds.length ≤ 11 →
    composeFixed ds = composeRaw ds ∧
    (ds.length = 11 →
      (overflows 11 (composeRaw ds) = true ↔ (ds[0]'(by omega)).extractLsb' 4 2 ≠ 0#2))

/-- The incremental overflow check rejects exactly the strings the full-width check rejects, and computes
the same value for the others (R143). -/
def Obligations.IncrementalOverflowCheckAgrees : Prop :=
  ∀ ds : List Digit, 1 ≤ ds.length → ds.length ≤ 11 →
    (composeIncremental ds 0 = none ↔ overflows ds.length (composeRaw ds) = true) ∧
    ∀ acc, composeIncremental ds 0 = some acc → acc = (composeRaw ds).toNat

/-! ### Round trips -/

/-- Round trip, encode then decode (R125, law L-1): for every N in 1..11 and every value in range, ENC
succeeds, and DEC of its RSYM[0..N−1] and N, performed in the state ENC left, returns the value. -/
def Obligations.DecOfEncReturnsTheValue : Prop :=
  ∀ (o o' : Operands) (s : State), Alphabet.Admissible s.alphabet →
    1 ≤ o.len.toNat → o.len.toNat ≤ 11 → o.wide = false →
    (o.len.toNat ≤ 10 → o.val.toNat < 2 ^ (6 * o.len.toNat)) →
    ∃ t, exec (.enc o) s = .next t ∧ rspStatus t.rspQ = 0#3 ∧ rspRlen t.rspQ = o.len ∧
      (o'.len = o.len → (∀ i (hi : i < 11), i < o.len.toNat → o'.sym[i] = wordLane t.rspQ i) →
        ∃ u, exec (.dec o') t = .next u ∧ rspStatus u.rspQ = 0#3 ∧ rspRval u.rspQ = o.val)

/-- Round trip, decode then encode (R144, law L-2): for every DEC that answers OK with RVAL = x and
RLEN = N, ENC N, x, performed in the state DEC left, answers OK with RSYM[i] = SYM[i] for i < N. -/
def Obligations.EncOfDecReturnsTheLanes : Prop :=
  ∀ (o o' : Operands) (s t : State), Alphabet.Admissible s.alphabet →
    exec (.dec o) s = .next t → rspStatus t.rspQ = 0#3 →
    o'.len = rspRlen t.rspQ → o'.val = rspRval t.rspQ → o'.wide = false →
    ∃ u, exec (.enc o') t = .next u ∧ rspStatus u.rspQ = 0#3 ∧ rspRlen u.rspQ = o.len ∧
      ∀ i (hi : i < 11), i < o.len.toNat → wordLane u.rspQ i = o.sym[i]

/-! ### The clock edge (spec/10_state.md, spec/70_reset_and_hazards.md) -/

/-- A step runs the decoded instruction: when a command is accepted at the coming edge and its word decodes
to i, which is then well formed, the step is exec of i on the state with that cycle's inputs gone
(R20, R233). -/
def Obligations.StepRunsTheAcceptedInstruction : Prop :=
  ∀ (s : State) (i : Instr), accepts s = true → decode (pins s).cmdData = .ok i →
    step s = exec i { s with inputs := s.inputs.tail }

/-- The clock-edge step (R233) over the two registers: reset; else accept, with Exec(cmd_data) of R70 as
the new response; else consume, the register keeping its stale value; else no change. -/
def Obligations.ClockEdgeFollowsTheRegisterRule : Prop :=
  ∀ (s : State) (p : PortInputs), pins s = p →
    (p.rst = true → ∃ t, step s = .next t ∧ t.rspValidQ = false ∧ t.rspQ = 0#256) ∧
    (p.rst = false → p.cmdValid = true → (s.rspValidQ = false ∨ p.rspReady = true) →
      ∃ t, step s = .next t ∧ t.rspValidQ = true ∧ t.rspQ = transact s.alphabet p.cmdData) ∧
    (p.rst = false → s.rspValidQ = true → p.rspReady = true → p.cmdValid = false →
      ∃ t, step s = .next t ∧ t.rspValidQ = false ∧ t.rspQ = s.rspQ) ∧
    (p.rst = false → s.rspValidQ = true → p.rspReady = false →
      ∃ t, step s = .next t ∧ t.rspValidQ = true ∧ t.rspQ = s.rspQ) ∧
    (p.rst = false → s.rspValidQ = false → p.cmdValid = false →
      ∃ t, step s = .next t ∧ t.rspValidQ = false ∧ t.rspQ = s.rspQ)

/-- The frame of a step: no edge writes the alphabet (R25, R26); the index of commands advances by exactly 1
when a command is accepted and stays otherwise (R22; that a reset edge leaves it is the model's reading,
notes/assumptions/3.md); one cycle of the host's inputs is used up (notes/assumptions/2.md). -/
def Obligations.StepKeepsTheAlphabetAndCountsCommands : Prop :=
  ∀ s : State, ∃ t, step s = .next t ∧ t.alphabet = s.alphabet ∧ t.inputs = s.inputs.tail ∧
    t.cmdIndex = s.cmdIndex + (if accepts s then 1 else 0)

/-- Atomicity of a response (R47): rsp_q changes only at an edge where a command is accepted or reset is
applied; while a response is pending and not consumed, cmd_ready is 0 and rsp_q and rsp_valid_q hold. -/
def Obligations.PendingResponseHoldsStill : Prop :=
  (∀ s t : State, step s = .next t → t.rspQ ≠ s.rspQ → accepts s = true ∨ (pins s).rst = true) ∧
  (∀ s : State, (pins s).rst = false → rspValid s = true → consumes s = false →
    cmdReady s = false ∧ ∃ t, step s = .next t ∧ rspData t = rspData s ∧ rspValid t = true)

/-- Atomicity of a command (R46): in a cycle whose edge accepts no command, cmd_data has no effect. -/
def Obligations.CommandDataCountsOnlyWhenAccepted : Prop :=
  ∀ (s : State) (p : PortInputs) (ps : List PortInputs) (cmd : Word256),
    s.inputs = p :: ps → accepts s = false →
    step { s with inputs := { p with cmdData := cmd } :: ps } = step s

/-- The block never hangs, stalls for an internal reason or refuses a command (R205): every edge, from
every state and whatever the host does, answers a next state, and an accepted command gets a valid
response. -/
def Obligations.EveryEdgeAnswersANextState : Prop :=
  ∀ s : State, ∃ t, step s = .next t ∧ (accepts s = true → t.rspValidQ = true)

/-- No history (R28, R204): two blocks with the same alphabet that accept the same command give the same
response, whatever either held or did before. -/
def Obligations.ResponseDependsOnTheCommandAlone : Prop :=
  ∀ s s' : State, s.alphabet = s'.alphabet → accepts s = true → accepts s' = true →
    (pins s).cmdData = (pins s').cmdData →
    ∃ t t', step s = .next t ∧ step s' = .next t' ∧ t.rspQ = t'.rspQ ∧ t.rspValidQ = t'.rspValidQ

/-- Reset (R230): at an edge with rst = 1, from every state, that before the first reset included,
cmd_ready is 0, no command is accepted, both registers are cleared, and the ROMs are untouched. -/
def Obligations.ResetEdgeClearsTheRegisters : Prop :=
  ∀ s : State, (pins s).rst = true →
    cmdReady s = false ∧ accepts s = false ∧
    ∃ t, step s = .next t ∧ t.rspValidQ = false ∧ t.rspQ = 0#256 ∧ t.alphabet = s.alphabet ∧
      fwdRom t.alphabet = fwdRom s.alphabet ∧ invRom t.alphabet = invRom s.alphabet

/-- After reset (R30, R237): whatever the unspecified power-up values are, one reset edge leaves the two
registers at zero and the ROMs at the alphabet's contents, and in the next cycle, if rst = 0, cmd_ready is
1; `State.reset` has those register values (its alphabet is the model's choice, notes/assumptions/1.md). -/
def Obligations.OneResetEdgeBootsTheBlock : Prop :=
  (∀ (a : Alphabet) (p : PortInputs) (ps : List PortInputs), p.rst = true →
    ∃ t, step (State.powerUp a (p :: ps)) = .next t ∧ t = State.resetWith a ps ∧
      ((pins t).rst = false → cmdReady t = true)) ∧
  State.reset.rspValidQ = false ∧ State.reset.rspQ = 0#256 ∧ cmdReady State.reset = true

/-- Ordering (R48): over any run without a reset edge, what was pending and then one response for each
accepted command, in order, is what was consumed, in order, and then what is pending: no response is
dropped, merged, duplicated or reordered. -/
def Obligations.ResponsesComeOncePerCommandInOrder : Prop :=
  ∀ (k : Nat) (s : State), noResetIn k s →
    pendingResponse s ++ (acceptedIn k s).map (transact s.alphabet) =
      consumedIn k s ++ pendingResponse (stateAfter k s)

/-- Throughput and the end of a run (R234, R240): a host that holds rsp_ready at 1 and presents K commands
back to back has every one accepted, one per clock, and after one more clock has observed exactly what was
pending and then Exec(cmd_0) .. Exec(cmd_{K−1}), with rsp_valid_q = 0. -/
def Obligations.BackToBackCommandsTakeOneClockEach : Prop :=
  ∀ (cmds : List Word256) (s : State) (rest : List PortInputs),
    s.inputs = cmds.map presentCommand ++
      { rst := false, cmdValid := false, cmdData := 0#256, rspReady := true } :: rest →
    acceptedIn cmds.length s = cmds ∧
    consumedIn (cmds.length + 1) s = pendingResponse s ++ cmds.map (transact s.alphabet) ∧
    (stateAfter (cmds.length + 1) s).rspValidQ = false

/-! ### The invariant -/

/-- Every edge, from every state that meets the invariant, gives a state that meets it: the alphabet stays
admissible (R100), and rsp_q holds a well-formed response or, unpresented, reset's zeros
(R30, R66, R67, R200, R203). -/
def Obligations.EveryStepKeepsTheResponseRegisterLegal : Prop :=
  ∀ s t : State, Inv s → step s = .next t → Inv t

/-- The invariant holds after reset, for every admissible alphabet and every host (R30), the model's own
`State.reset` included. -/
def Obligations.ResponseRegisterIsLegalAfterReset : Prop :=
  (∀ (a : Alphabet) (ps : List PortInputs), Alphabet.Admissible a → Inv (State.resetWith a ps)) ∧
  Inv State.reset

/-! ### The source's functions (R62 to R64, R74, R75) -/

/-- `encode(value, length)` for arbitrary integers, as the host presents them (R62, R64, R75): ILEN for a
length outside [1,11], however large or negative; else RANGE for a value that is negative, 2^64 or more, or
2^(6N) or more; else the string of N symbols, digit i at position i. -/
def Obligations.SourceEncodeOfAnyIntegers : Prop :=
  ∀ (a : Alphabet) (value length : Int),
    (length < 1 ∨ 11 < length → sourceEncode a value length = .error 1#3) ∧
    (∀ n : Nat, 1 ≤ n → n ≤ 11 → length = n →
      (value < 0 ∨ 2 ^ 64 ≤ value ∨ 2 ^ (6 * n) ≤ value → sourceEncode a value length = .error 3#3) ∧
      (∀ x : Nat, value = x → x < 2 ^ 64 → x < 2 ^ (6 * n) →
        sourceEncode a value length =
          .ok ((List.range n).map fun i => fwd a (BitVec.ofNat 6 (x / 64 ^ (n - 1 - i))))))

/-- `decode(s)` for any string of characters, non-ASCII ones included, as the host presents it
(R63, R64, R75): ILEN for the empty string and for 12 characters or more; else ICHAR if some character is
no symbol of the alphabet; else RANGE or the value. -/
def Obligations.SourceDecodeOfAnyString : Prop :=
  ∀ (a : Alphabet) (s : List Char), Alphabet.Admissible a →
    (s.length < 1 ∨ 11 < s.length → sourceDecode a s = .error 1#3) ∧
    (1 ≤ s.length → s.length ≤ 11 → (∃ c ∈ s, ∀ v : Digit, (fwd a v).toNat ≠ c.toNat) →
      sourceDecode a s = .error 2#3) ∧
    (1 ≤ s.length → s.length ≤ 11 → ∀ d : Nat → Digit,
      (∀ i (hi : i < s.length), (fwd a (d i)).toNat = s[i].toNat) →
      (s.length = 11 ∧ 16 ≤ (d 0).toNat → sourceDecode a s = .error 3#3) ∧
      (¬ (s.length = 11 ∧ 16 ≤ (d 0).toNat) →
        sourceDecode a s = .ok (BitVec.ofNat 64
          (∑ k ∈ Finset.range s.length, (d k).toNat * 64 ^ (s.length - 1 - k)))))

/-- `decode(encode(value, length)) == value` for all valid (value, length) pairs (R125), through the host's
own characters: each symbol returned is the ASCII character with that code. -/
def Obligations.SourceRoundTripReturnsTheValue : Prop :=
  ∀ (a : Alphabet) (x n : Nat), Alphabet.Admissible a → 1 ≤ n → n ≤ 11 → x < 2 ^ 64 → x < 2 ^ (6 * n) →
    ∃ syms, sourceEncode a x n = .ok syms ∧ syms.length = n ∧
      sourceDecode a (syms.map fun c => Char.ofNat c.toNat) = .ok (BitVec.ofNat 64 x)

/-- The source's Alphabet contract as the host uses it (R75 rows 3 and 4, R106): value→char gives RANGE for
an integer outside [0,63], however large or negative, and the symbol at that position otherwise; char→value
gives ICHAR for a character that is no symbol of the alphabet, non-ASCII ones included, and undoes
value→char on every 6-bit value. -/
def Obligations.SourceLookupsArePerfectInverses : Prop :=
  ∀ a : Alphabet, Alphabet.Admissible a →
    (∀ x : Int, x < 0 ∨ 64 ≤ x → sourceSymbol a x = .error 3#3) ∧
    (∀ v : Digit, sourceSymbol a v.toNat = .ok (fwd a v)) ∧
    (∀ c : Char, (∀ v : Digit, (fwd a v).toNat ≠ c.toNat) → sourceValue a c = .error 2#3) ∧
    (∀ (c : Char) (v : Digit), (fwd a v).toNat = c.toNat → sourceValue a c = .ok v)

/-- The host that mimics the software (R75): each of the four functions maps every failure to one generic
error, so it succeeds exactly on its domain: encode for a length in [1,11] and a value in range (R121), decode
for 1 to 11 symbols of the alphabet that do not overflow (R141, R142), value→char for 0..63 (R104) and
char→value for a symbol of the alphabet (R105). -/
def Obligations.GenericErrorIsExactlyOutsideTheDomain : Prop :=
  ∀ a : Alphabet, Alphabet.Admissible a →
    (∀ value length : Int, (genericError (sourceEncode a value length)).isSome = true ↔
      1 ≤ length ∧ length ≤ 11 ∧ 0 ≤ value ∧ value < 2 ^ 64 ∧ value < 2 ^ (6 * length.toNat)) ∧
    (∀ s : List Char, (genericError (sourceDecode a s)).isSome = true ↔
      1 ≤ s.length ∧ s.length ≤ 11 ∧ ∃ d : Nat → Digit,
        (∀ i (hi : i < s.length), (fwd a (d i)).toNat = s[i].toNat) ∧
        (s.length = 11 → (d 0).toNat < 16)) ∧
    (∀ x : Int, (genericError (sourceSymbol a x)).isSome = true ↔ 0 ≤ x ∧ x < 64) ∧
    (∀ c : Char, (genericError (sourceValue a c)).isSome = true ↔ ∃ v : Digit, (fwd a v).toNat = c.toNat)
end

