-- ==== Sys2Proof/Laws/Digits.lean ====
section
/-! SUPPORT. What the extractor and the composer compute, on naturals (spec/41_encoder.md R120,
spec/42_decoder.md R140). -/

namespace Sys2Proof.Machine

theorem lengthOk_iff (n : Nat) : lengthOk n = true ↔ 1 ≤ n ∧ n ≤ 11 := by simp [lengthOk]

theorem lengthOk_eq_false_iff (n : Nat) : lengthOk n = false ↔ n < 1 ∨ 11 < n := by
  rw [← Bool.not_eq_true, lengthOk_iff]; omega

/-- Digit i of the N-digit representation, as a natural. -/
theorem toNat_extract (v : Value) (n i : Nat) :
    (extract v n i).toNat = v.toNat / 64 ^ (n - 1 - i) % 64 := by
  simp [extract, Config.digitW, Nat.shiftRight_eq_div_pow, pow_mul]

theorem extract_eq_ofNat (v : Value) (n i : Nat) :
    extract v n i = BitVec.ofNat 6 (v.toNat / 64 ^ (n - 1 - i)) := by
  apply BitVec.eq_of_toNat_eq; rw [toNat_extract, BitVec.toNat_ofNat]

/-- The composer's running total, started from `acc`. -/
theorem foldl_compose (ds : List Digit) (acc : Nat) :
    ds.foldl (fun acc d => (acc <<< 6) + d.toNat) acc = acc * 64 ^ ds.length + compose ds := by
  induction ds generalizing acc with
  | nil => simp [compose]
  | cons d ds ih =>
    simp only [compose, List.foldl_cons, List.length_cons]
    rw [ih, ih (0 <<< 6 + d.toNat)]
    simp only [Nat.shiftLeft_eq, pow_succ]; ring

theorem compose_nil : compose [] = 0 := rfl

theorem compose_cons (d : Digit) (ds : List Digit) :
    compose (d :: ds) = d.toNat * 64 ^ ds.length + compose ds := by
  have := foldl_compose ds (0 <<< 6 + d.toNat)
  simpa [compose] using this

/-- The total never outgrows its digits: `acc < 2^(6k)` after k digits (R140, R146). -/
theorem compose_lt (ds : List Digit) : compose ds < 64 ^ ds.length := by
  induction ds with
  | nil => simp [compose_nil]
  | cons d ds ih =>
    have := d.isLt
    rw [compose_cons, List.length_cons, pow_succ]; nlinarith

theorem toNat_composeRaw (ds : List Digit) (h : ds.length ≤ 11) : (composeRaw ds).toNat = compose ds := by
  have h1 := compose_lt ds
  have h2 : 64 ^ ds.length ≤ 64 ^ 11 := Nat.pow_le_pow_right (by omega) h
  rw [composeRaw, BitVec.toNat_ofNat, Nat.mod_eq_of_lt]
  exact lt_of_lt_of_le h1 (h2.trans (by norm_num))

/-- Digits given by position: the big-endian base-64 sum (R140). -/
theorem compose_map_range (d : Nat → Digit) (n : Nat) :
    compose ((List.range n).map d) = ∑ k ∈ Finset.range n, (d k).toNat * 64 ^ (n - 1 - k) := by
  induction n generalizing d with
  | zero => rfl
  | succ n ih =>
    rw [List.range_succ_eq_map, List.map_cons, List.map_map, compose_cons, Finset.sum_range_succ',
      show (d ∘ Nat.succ) = fun k => d (k + 1) from rfl, ih (fun k => d (k + 1))]
    simp only [List.length_map, List.length_range, Nat.add_sub_cancel, Nat.sub_zero]
    rw [add_comm]
    congr 1
    refine Finset.sum_congr rfl fun k hk => ?_
    rw [show n - (k + 1) = n - 1 - k by omega]

/-- The overflow test of R142 is `acc >= 2^64` (R141). -/
theorem overflows_iff (n : Nat) (acc : Raw) : overflows n acc = true ↔ n = 11 ∧ 2 ^ 64 ≤ acc.toNat := by
  have := acc.isLt
  simp only [overflows, decide_eq_true_eq, ne_eq, ← BitVec.toNat_inj, BitVec.extractLsb'_toNat,
    Nat.shiftRight_eq_div_pow, BitVec.toNat_ofNat]
  constructor <;> rintro ⟨rfl, h⟩ <;> refine ⟨rfl, ?_⟩ <;> omega

/-- Every lane in use is a member: the lookups give the digits in order (R142). -/
theorem lookupAll_eq_some_iff (a : Alphabet) (cs : List Symbol) (ds : List Digit) :
    lookupAll a cs = some ds ↔ List.Forall₂ (fun c d => inv a c = some d) cs ds := by
  induction cs generalizing ds with
  | nil => simp [lookupAll, eq_comm]
  | cons c cs ih =>
    rw [lookupAll, List.forall₂_cons_left_iff]
    constructor
    · intro h
      split at h
      case h_1 v vs hv hvs => cases h; exact ⟨v, vs, hv, (ih vs).mp hvs, rfl⟩
      case h_2 => cases h
    · rintro ⟨v, vs, hv, hvs, rfl⟩
      rw [hv, (ih vs).mpr hvs]

/-- Some lane in use is not a member: no digits (R142). -/
theorem lookupAll_eq_none_iff (a : Alphabet) (cs : List Symbol) :
    lookupAll a cs = none ↔ ∃ c ∈ cs, inv a c = none := by
  induction cs with
  | nil => simp [lookupAll]
  | cons c cs ih =>
    rw [lookupAll]
    cases hc : inv a c <;> cases hcs : lookupAll a cs <;> simp_all

theorem length_usedLanes (sym : Lanes) (n : Nat) (h : n ≤ 11) : (usedLanes sym n).length = n := by
  simp [usedLanes, h]

theorem getElem_usedLanes (sym : Lanes) (n i : Nat) (h : n ≤ 11) (hi : i < n) :
    (usedLanes sym n)[i]'(by rw [length_usedLanes _ _ h]; exact hi) = sym[i] := by
  simp [usedLanes]

/-- The lanes in use hold the symbols of `d 0 .. d (n−1)`: the lookups give exactly those digits. -/
theorem lookupAll_usedLanes {a : Alphabet} (d : Nat → Digit) (sym : Lanes) (n : Nat) (h : n ≤ 11)
    (hd : ∀ i (hi : i < 11), i < n → inv a sym[i] = some (d i)) :
    lookupAll a (usedLanes sym n) = some ((List.range n).map d) := by
  rw [lookupAll_eq_some_iff, List.forall₂_iff_get]
  refine ⟨by simp [length_usedLanes _ _ h], fun i h1 h2 => ?_⟩
  rw [length_usedLanes _ _ h] at h1
  simpa [getElem_usedLanes sym n i h h1] using hd i (by omega) h1

end Sys2Proof.Machine
end

