-- ==== Sys2Proof/Laws/Layout.lean ====
section
/-! SUPPORT. The bit layout of command and response words: every field read back from a packed word, and a
word rebuilt from its fields. -/

namespace Sys2Proof

open BitVec

theorem getElem_lanesOf (f : Nat → Symbol) (i : Nat) (h : i < 11) : (lanesOf f)[i] = f i := by
  interval_cases i <;> rfl

theorem lanesOf_getElem (l : Lanes) (f : Nat → Symbol) (h : ∀ i (hi : i < 11), f i = l[i]) :
    lanesOf f = l := by
  ext i hi
  rw [getElem_lanesOf _ _ hi, h i hi]

theorem lanesOf_congr {f g : Nat → Symbol} (h : ∀ i < 11, f i = g i) : lanesOf f = lanesOf g := by
  ext i hi
  rw [getElem_lanesOf _ _ hi, getElem_lanesOf _ _ hi, h i hi]

theorem extract_lanesBits (l : Lanes) (i : Nat) (hi : i < 11) :
    (lanesBits l).extractLsb' (8 * i) 8 = l[i] := by
  interval_cases i <;>
    simp (disch := omega) only [lanesBits, extractLsb'_append_eq_of_le,
      extractLsb'_append_eq_of_add_le] <;>
    exact extractLsb'_eq_self

/-- The lanes of a word side by side are its bits 215:128 (R43). -/
theorem lanesBits_wordLane (w : Word256) : lanesBits (lanesOf (wordLane w)) = w.extractLsb' 128 88 := by
  simp only [lanesBits, getElem_lanesOf, wordLane]
  repeat rw [extractLsb'_append_extractLsb'_eq_extractLsb' (by rfl)]

/-- A lane of a word whose bits 215:128 are packed lanes. -/
theorem wordLane_of_bits (w : Word256) (l : Lanes) (h : w.extractLsb' 128 88 = lanesBits l)
    (i : Nat) (hi : i < 11) : wordLane w i = l[i] := by
  rw [← extract_lanesBits l i hi, ← h, wordLane]
  ext j hj
  simp only [getElem_extractLsb', getLsbD_extractLsb']
  rw [show decide (8 * i + j < 88) = true from decide_eq_true (by omega), Bool.true_and]
  congr 1; omega

/-! ### Command words (R60) -/

section Command
variable (op : OpCode) (o : Operands)

theorem cmdOp_packCommand : cmdOp (packCommand op o) = op := by
  simp (disch := omega) only [cmdOp, packCommand, extractLsb'_append_eq_of_add_le]
  exact extractLsb'_eq_self

theorem cmdRsvd0_packCommand : cmdRsvd0 (packCommand op o) = 0#5 := by
  simp (disch := omega) only [cmdRsvd0, packCommand, extractLsb'_append_eq_of_le,
    extractLsb'_append_eq_of_add_le]
  exact extractLsb'_eq_self

theorem cmdLen_packCommand : cmdLen (packCommand op o) = o.len := by
  simp (disch := omega) only [cmdLen, packCommand, extractLsb'_append_eq_of_le,
    extractLsb'_append_eq_of_add_le]
  exact extractLsb'_eq_self

theorem cmdWide_packCommand : cmdWide (packCommand op o) = o.wide := by
  have h : (packCommand op o).extractLsb' 16 1 = BitVec.ofBool o.wide := by
    simp (disch := omega) only [packCommand, extractLsb'_append_eq_of_le,
      extractLsb'_append_eq_of_add_le]
    exact extractLsb'_eq_self
  have := congrArg (fun x => x.getLsbD 0) h
  simpa [cmdWide] using this

theorem cmdRsvd1_packCommand : cmdRsvd1 (packCommand op o) = 0#47 := by
  simp (disch := omega) only [cmdRsvd1, packCommand, extractLsb'_append_eq_of_le,
    extractLsb'_append_eq_of_add_le]
  exact extractLsb'_eq_self

theorem cmdVal_packCommand : cmdVal (packCommand op o) = o.val := by
  simp (disch := omega) only [cmdVal, packCommand, extractLsb'_append_eq_of_le,
    extractLsb'_append_eq_of_add_le]
  exact extractLsb'_eq_self

theorem cmdRsvd2_packCommand : cmdRsvd2 (packCommand op o) = 0#40 := by
  simp (disch := omega) only [cmdRsvd2, packCommand, extractLsb'_append_eq_of_le]
  exact extractLsb'_eq_self

theorem wordLane_packCommand (i : Nat) (hi : i < 11) :
    wordLane (packCommand op o) i = o.sym[i] := by
  refine wordLane_of_bits _ _ ?_ i hi
  simp (disch := omega) only [packCommand, extractLsb'_append_eq_of_le,
    extractLsb'_append_eq_of_add_le]
  exact extractLsb'_eq_self

theorem operandsOf_packCommand : operandsOf (packCommand op o) = o := by
  simp only [operandsOf, cmdLen_packCommand, cmdWide_packCommand, cmdVal_packCommand,
    lanesOf_getElem o.sym _ (wordLane_packCommand op o)]

theorem reservedBitsSet_packCommand : reservedBitsSet (packCommand op o) = false := by
  simp [reservedBitsSet, cmdRsvd0_packCommand, cmdRsvd1_packCommand, cmdRsvd2_packCommand]

end Command

/-- A word with its reserved fields clear is the packed word of its own fields. -/
theorem packCommand_operandsOf (cmd : Word256) (h : reservedBitsSet cmd = false) :
    packCommand (cmdOp cmd) (operandsOf cmd) = cmd := by
  simp only [reservedBitsSet, Bool.or_eq_false_iff, bne_eq_false_iff_eq] at h
  obtain ⟨⟨h0, h1⟩, h2⟩ := h
  have hw : BitVec.ofBool (cmdWide cmd) = cmd.extractLsb' 16 1 := by
    ext i hi
    obtain rfl : i = 0 := by omega
    simp [cmdWide]
  simp only [cmdRsvd0, cmdRsvd1, cmdRsvd2] at h0 h1 h2
  simp only [packCommand, operandsOf, lanesBits_wordLane, hw, cmdLen, cmdVal, cmdOp]
  rw [show 0#5 = _ from h0.symm, show 0#47 = _ from h1.symm, show 0#40 = _ from h2.symm]
  repeat rw [extractLsb'_append_extractLsb'_eq_extractLsb' (by rfl)]
  exact extractLsb'_eq_self

namespace Machine

/-! ### Response words (R66) -/

section Response
variable (r : Response)

theorem rspStatus_packResponse : rspStatus (packResponse r) = r.status := by
  simp (disch := omega) only [rspStatus, packResponse, extractLsb'_append_eq_of_add_le]
  exact extractLsb'_eq_self

theorem rspRop_packResponse : rspRop (packResponse r) = r.rop := by
  simp (disch := omega) only [rspRop, packResponse, extractLsb'_append_eq_of_le,
    extractLsb'_append_eq_of_add_le]
  exact extractLsb'_eq_self

theorem rspRlen_packResponse : rspRlen (packResponse r) = r.rlen := by
  simp (disch := omega) only [rspRlen, packResponse, extractLsb'_append_eq_of_le,
    extractLsb'_append_eq_of_add_le]
  exact extractLsb'_eq_self

theorem rspRval_packResponse : rspRval (packResponse r) = r.rval := by
  simp (disch := omega) only [rspRval, packResponse, extractLsb'_append_eq_of_le,
    extractLsb'_append_eq_of_add_le]
  exact extractLsb'_eq_self

theorem wordLane_packResponse (i : Nat) (hi : i < 11) :
    wordLane (packResponse r) i = r.rsym[i] := by
  refine wordLane_of_bits _ _ ?_ i hi
  simp (disch := omega) only [packResponse, extractLsb'_append_eq_of_le,
    extractLsb'_append_eq_of_add_le]
  exact extractLsb'_eq_self

/-- The four gaps of a packed response are zero. -/
theorem zeros_packResponse :
    (packResponse r).extractLsb' 3 5 = 0#5 ∧ (packResponse r).extractLsb' 11 5 = 0#5 ∧
    (packResponse r).extractLsb' 24 40 = 0#40 ∧ (packResponse r).extractLsb' 216 40 = 0#40 := by
  refine ⟨?_, ?_, ?_, ?_⟩ <;>
    simp (disch := omega) only [packResponse, extractLsb'_append_eq_of_le,
      extractLsb'_append_eq_of_add_le] <;>
    exact extractLsb'_eq_self

end Response

theorem getElem_noSymbols (i : Nat) (hi : i < 11) : noSymbols[i] = 0#8 := getElem_lanesOf _ i hi

/-- The error response as one number: `STATUS` in bits 2:0, `ROP` in bits 10:8 (R203). -/
theorem packResponse_error (op : OpCode) (k : ErrorKind) :
    packResponse (errorResponse op k) =
      BitVec.ofNat 256 ((errorStatus k).toNat + 256 * op.toNat) := by
  cases k <;> revert op <;> decide

end Machine

end Sys2Proof
end

