-- ==== Sys2Proof/Laws/State.lean ====
section
/-! SUPPORT. One lemma per field per update of `State`, so that no later proof unfolds a record update. -/

namespace Sys2Proof.Machine

section Respond
variable (w : Word256) (op : OpCode) (k : ErrorKind) (s : State)

@[simp] theorem respond_rspQ : (respond w s).rspQ = w := rfl
@[simp] theorem respond_rspValidQ : (respond w s).rspValidQ = true := rfl
@[simp] theorem respond_alphabet : (respond w s).alphabet = s.alphabet := rfl
@[simp] theorem respond_cmdIndex : (respond w s).cmdIndex = s.cmdIndex + 1 := rfl
@[simp] theorem respond_inputs : (respond w s).inputs = s.inputs := rfl

@[simp] theorem raiseError_rspQ : (raiseError op k s).rspQ = packResponse (errorResponse op k) := rfl
@[simp] theorem raiseError_rspValidQ : (raiseError op k s).rspValidQ = true := rfl
@[simp] theorem raiseError_alphabet : (raiseError op k s).alphabet = s.alphabet := rfl
@[simp] theorem raiseError_cmdIndex : (raiseError op k s).cmdIndex = s.cmdIndex + 1 := rfl
@[simp] theorem raiseError_inputs : (raiseError op k s).inputs = s.inputs := rfl

end Respond

section Edge
variable (s : State)

@[simp] theorem consumeResponse_rspQ : (consumeResponse s).rspQ = s.rspQ := rfl
@[simp] theorem consumeResponse_rspValidQ : (consumeResponse s).rspValidQ = false := rfl
@[simp] theorem consumeResponse_alphabet : (consumeResponse s).alphabet = s.alphabet := rfl
@[simp] theorem consumeResponse_cmdIndex : (consumeResponse s).cmdIndex = s.cmdIndex := rfl
@[simp] theorem consumeResponse_inputs : (consumeResponse s).inputs = s.inputs := rfl

@[simp] theorem resetEdge_rspQ : (resetEdge s).rspQ = 0#256 := rfl
@[simp] theorem resetEdge_rspValidQ : (resetEdge s).rspValidQ = false := rfl
@[simp] theorem resetEdge_alphabet : (resetEdge s).alphabet = s.alphabet := rfl
@[simp] theorem resetEdge_cmdIndex : (resetEdge s).cmdIndex = s.cmdIndex := rfl
@[simp] theorem resetEdge_inputs : (resetEdge s).inputs = s.inputs := rfl

@[simp] theorem nextCycle_rspQ : (nextCycle s).rspQ = s.rspQ := rfl
@[simp] theorem nextCycle_rspValidQ : (nextCycle s).rspValidQ = s.rspValidQ := rfl
@[simp] theorem nextCycle_alphabet : (nextCycle s).alphabet = s.alphabet := rfl
@[simp] theorem nextCycle_cmdIndex : (nextCycle s).cmdIndex = s.cmdIndex := rfl
@[simp] theorem nextCycle_inputs : (nextCycle s).inputs = s.inputs.tail := rfl

end Edge

theorem pins_of_cons (s : State) (p : PortInputs) (ps : List PortInputs) (h : s.inputs = p :: ps) :
    pins s = p := by simp [pins, h]

theorem pins_of_nil (s : State) (h : s.inputs = []) : pins s = PortInputs.idle := by simp [pins, h]

theorem pins_withFetchWord (s : State) (nbits w : Nat) :
    pins (s.withFetchWord nbits w) = presentCommand (tableWord nbits w) := rfl

/-- Whatever the state, the command that `withFetchWord` presents is accepted at the next edge. -/
theorem accepts_withFetchWord (s : State) (nbits w : Nat) :
    accepts (s.withFetchWord nbits w) = true := by
  simp [accepts, cmdReady, pins_withFetchWord, presentCommand]

end Sys2Proof.Machine
end

