-- ==== Sys2Proof/Laws/Exec.lean ====
section
/-! SUPPORT. What a meaning can do: every instruction answers a next state in which its response stands. -/

namespace Sys2Proof.Machine

/-- The response of an instruction under an alphabet. -/
def instrResponse (a : Alphabet) : Instr → Response
  | .enc o => answer 0#3 (encResult a o)
  | .dec o => answer 1#3 (decResult a o)
  | .lsym o => answer 2#3 (lsymResult a o)
  | .lval o => answer 3#3 (lvalResult a o)
  | .reservedOp4 _ => errorResponse 4#3 .illegalCommand
  | .reservedOp5 _ => errorResponse 5#3 .illegalCommand
  | .reservedOp6 _ => errorResponse 6#3 .illegalCommand
  | .reservedOp7 _ => errorResponse 7#3 .illegalCommand

/-- Everything `deliver` can do. -/
theorem deliver_eq (op : OpCode) (r : Except ErrorKind Payload) (s : State) :
    deliver op r s = .next (respond (packResponse (answer op r)) s) := by
  cases r <;> rfl

/-- Everything an instruction can do. -/
theorem exec_eq (i : Instr) (s : State) :
    exec i s = .next (respond (packResponse (instrResponse s.alphabet i)) s) := by
  cases i <;> first | exact deliver_eq _ _ _ | rfl

/-- The reserved-bit test of R70 is the decoder's. -/
theorem reservedBitsSet_iff (cmd : Word256) :
    reservedBitsSet cmd = true ↔ cmdRsvd0 cmd ≠ 0 ∨ cmdRsvd1 cmd ≠ 0 ∨ cmdRsvd2 cmd ≠ 0 := by
  simp [reservedBitsSet, or_assoc]

theorem op_cases : ∀ op : OpCode, op = 0#3 ∨ op = 1#3 ∨ op = 2#3 ∨ op = 3#3 ∨ op = 4#3 ∨ op = 5#3 ∨
    op = 6#3 ∨ op = 7#3 := by decide

/-- Everything the decoder can answer (R68, R71). -/
theorem decode_cases (cmd : Word256) :
    (∃ i, decode cmd = .ok i ∧ instrOp i = cmdOp cmd ∧
      ((reservedBitsSet cmd = false ∧
        (i = .enc (operandsOf cmd) ∨ i = .dec (operandsOf cmd) ∨ i = .lsym (operandsOf cmd) ∨
          i = .lval (operandsOf cmd))) ∨
        i = .reservedOp4 cmd ∨ i = .reservedOp5 cmd ∨ i = .reservedOp6 cmd ∨ i = .reservedOp7 cmd)) ∨
    (decode cmd = .error (.reservedBits (cmdOp cmd)) ∧ reservedBitsSet cmd = true ∧
      (cmdOp cmd).toNat < 4) := by
  rcases op_cases (cmdOp cmd) with h | h | h | h | h | h | h | h <;>
    cases hr : reservedBitsSet cmd <;> simp [decode, h, hr, instrOp]

section Transact
variable (a : Alphabet) {cmd : Word256}

theorem transact_enc (h : cmdOp cmd = 0#3) (hr : reservedBitsSet cmd = false) :
    transact a cmd = packResponse (answer 0#3 (encResult a (operandsOf cmd))) := by
  have hn := (reservedBitsSet_iff cmd).not.mp (by rw [hr]; decide)
  rw [transact]
  rw [if_neg hn, h, if_pos rfl]

theorem transact_dec (h : cmdOp cmd = 1#3) (hr : reservedBitsSet cmd = false) :
    transact a cmd = packResponse (answer 1#3 (decResult a (operandsOf cmd))) := by
  have hn := (reservedBitsSet_iff cmd).not.mp (by rw [hr]; decide)
  rw [transact]
  rw [if_neg hn, h, if_neg (by decide), if_pos rfl]

theorem transact_lsym (h : cmdOp cmd = 2#3) (hr : reservedBitsSet cmd = false) :
    transact a cmd = packResponse (answer 2#3 (lsymResult a (operandsOf cmd))) := by
  have hn := (reservedBitsSet_iff cmd).not.mp (by rw [hr]; decide)
  rw [transact]
  rw [if_neg hn, h, if_neg (by decide), if_neg (by decide), if_pos rfl]

theorem transact_lval (h : cmdOp cmd = 3#3) (hr : reservedBitsSet cmd = false) :
    transact a cmd = packResponse (answer 3#3 (lvalResult a (operandsOf cmd))) := by
  have hn := (reservedBitsSet_iff cmd).not.mp (by rw [hr]; decide)
  rw [transact]
  rw [if_neg hn, h, if_neg (by decide), if_neg (by decide), if_neg (by decide), if_pos rfl]

/-- Reserved `OP` or a nonzero reserved bit: IllegalCommand (R201). -/
theorem transact_illegal (h : reservedBitsSet cmd = true ∨ 4 ≤ (cmdOp cmd).toNat) :
    transact a cmd = packResponse (errorResponse (cmdOp cmd) .illegalCommand) := by
  rw [transact]
  by_cases hn : cmdRsvd0 cmd ≠ 0 ∨ cmdRsvd1 cmd ≠ 0 ∨ cmdRsvd2 cmd ≠ 0
  · rw [if_pos hn]
  · have h4 : 4 ≤ (cmdOp cmd).toNat := h.resolve_left fun hr => hn ((reservedBitsSet_iff cmd).mp hr)
    have hne : ∀ k : OpCode, k.toNat < 4 → cmdOp cmd ≠ k := by
      rintro k hk rfl; omega
    rw [if_neg hn, if_neg (hne _ (by decide)), if_neg (hne _ (by decide)), if_neg (hne _ (by decide)),
      if_neg (hne _ (by decide))]

/-- `Exec` of a word that decodes is the decoded instruction's response (R70). -/
theorem transact_of_decode {i : Instr} (h : decode cmd = .ok i) :
    transact a cmd = packResponse (instrResponse a i) := by
  rcases decode_cases cmd with ⟨j, hj, hop, hc⟩ | ⟨he, -, -⟩
  · obtain rfl : j = i := Except.ok.inj (hj.symm.trans h)
    rcases hc with ⟨hr, rfl | rfl | rfl | rfl⟩ | rfl | rfl | rfl | rfl
    · exact transact_enc a hop.symm hr
    · exact transact_dec a hop.symm hr
    · exact transact_lsym a hop.symm hr
    · exact transact_lval a hop.symm hr
    all_goals
      rw [transact_illegal a (.inr (by rw [← hop, instrOp]; decide)), ← hop]
      rw [instrOp, instrResponse]
  · rw [h] at he; cases he

/-- `Exec` of a word that is no row is the IllegalCommand error (R201). -/
theorem transact_of_decode_error {op : OpCode}
    (h : decode cmd = .error (.reservedBits op)) :
    transact a cmd = packResponse (errorResponse op .illegalCommand) := by
  rcases decode_cases cmd with ⟨j, hj, -⟩ | ⟨he, hr, -⟩
  · rw [h] at hj; cases hj
  · obtain rfl : op = cmdOp cmd := by rw [h] at he; cases he; rfl
    exact transact_illegal a (.inl hr)

end Transact

/-- Everything an accepted command word can do, a word that is no row included (R70). -/
theorem performCommand_eq (cmd : Word256) (s : State) :
    performCommand cmd s = .next (respond (transact s.alphabet cmd) s) := by
  unfold performCommand
  split
  case h_1 i h => rw [exec_eq, transact_of_decode _ h]
  case h_2 op h => rw [raiseError, transact_of_decode_error _ h]

end Sys2Proof.Machine
end

