-- ==== Sys2Proof/Laws/Lut.lean ====
section
/-! SUPPORT. The LUT's two directions (spec/40_alphabet_lut.md R101, R102). -/

namespace Sys2Proof.Machine

/-- Law R100(a) makes the forward lookup injective. -/
theorem fwd_injective {a : Alphabet} (h : Alphabet.Distinct a) {v w : Digit} (e : fwd a v = fwd a w) :
    v = w := by
  by_contra hne
  refine h ⟨v.toNat, v.isLt⟩ ⟨w.toNat, w.isLt⟩ ?_ e
  intro hvw
  exact hne (BitVec.eq_of_toNat_eq (congrArg Fin.val hvw))

/-- A member entry of `INV_ROM` is `{1, v}` for a position that holds the code. -/
theorem invRomEntry_cases (a : Alphabet) (c : Symbol) :
    (∃ v : Digit, fwd a v = c ∧ invRomEntry a c = 1#1 ++ v) ∨
    ((∀ v : Digit, fwd a v ≠ c) ∧ invRomEntry a c = 0#7) := by
  unfold invRomEntry
  split
  case h_1 v h =>
    obtain ⟨hlt, hv, -⟩ := List.findIdx?_eq_some_iff_getElem.mp h
    rw [Vector.length_toList] at hlt
    refine .inl ⟨BitVec.ofNat 6 v, ?_, rfl⟩
    simpa [fwd, fwdRom, Nat.mod_eq_of_lt hlt] using hv
  case h_2 h =>
    refine .inr ⟨fun v hv => ?_, rfl⟩
    have := List.findIdx?_eq_none_iff.mp h (fwd a v) (by simp [fwd, fwdRom])
    simp [hv] at this

/-- `Inv` says which position holds a code, or that none does. -/
theorem inv_cases (a : Alphabet) (c : Symbol) :
    (∃ v : Digit, fwd a v = c ∧ inv a c = some v) ∨ ((∀ v : Digit, fwd a v ≠ c) ∧ inv a c = none) := by
  rcases invRomEntry_cases a c with ⟨v, hv, he⟩ | ⟨hn, he⟩
  · refine .inl ⟨v, hv, ?_⟩
    have hbit : (1#1 ++ v : BitVec 7).getLsbD 6 = true := by
      rw [BitVec.getLsbD_append]; rfl
    rw [inv, he, if_pos hbit,
      BitVec.extractLsb'_append_eq_of_add_le (Nat.le_refl 6), BitVec.extractLsb'_eq_self]
  · exact .inr ⟨hn, by rw [inv, he]; rfl⟩

theorem inv_eq_none_iff (a : Alphabet) (c : Symbol) : inv a c = none ↔ ∀ v : Digit, fwd a v ≠ c := by
  rcases inv_cases a c with ⟨v, hv, h⟩ | ⟨hn, h⟩
  · simp only [h, reduceCtorEq, false_iff, not_forall, not_not]; exact ⟨v, hv⟩
  · simp only [h, true_iff]; exact hn

theorem fwd_of_inv {a : Alphabet} {c : Symbol} {v : Digit} (h : inv a c = some v) : fwd a v = c := by
  rcases inv_cases a c with ⟨w, hw, h'⟩ | ⟨-, h'⟩
  · rw [h] at h'; cases h'; exact hw
  · rw [h] at h'; cases h'

theorem inv_of_fwd {a : Alphabet} (ha : Alphabet.Distinct a) {c : Symbol} {v : Digit} (h : fwd a v = c) :
    inv a c = some v := by
  rcases inv_cases a c with ⟨w, hw, h'⟩ | ⟨hn, -⟩
  · rw [h', fwd_injective ha (hw.trans h.symm)]
  · exact absurd h (hn v)

end Sys2Proof.Machine
end

