-- ==== Sys2Proof/Laws/PerInstr.lean ====
section
/-! SUPPORT. Statements made per instruction: the family `RowMatch`, a well-formed instruction's word matches
its row of spec/opcode_table.json, `(cmd & mask) == match`. -/

namespace Sys2Proof.Laws.RowMatch

/-- The word of a well-formed instruction matches its row. -/
def Statement (i : Instr) : Prop :=
  i.wellFormed = true → encode i &&& rowMask i = (instrOp i).setWidth 256

theorem append_and_append {m n : Nat} (a b : BitVec m) (c d : BitVec n) :
    (a ++ c) &&& (b ++ d) = (a &&& b) ++ (c &&& d) := by
  ext i hi
  simp only [BitVec.getElem_and, BitVec.getElem_append]
  split <;> simp

/-- A packed command, masked, is its `OP`: the mask covers OP and the reserved fields only. -/
theorem packCommand_masked (op : OpCode) (o : Operands) :
    packCommand op o &&& legalMask = op.setWidth 256 := by
  have hmask : legalMask =
      BitVec.allOnes 40 ++ 0#88 ++ 0#64 ++ BitVec.allOnes 47 ++ 0#1 ++ 0#8 ++ BitVec.allOnes 5 ++
        BitVec.allOnes 3 := by decide
  have hop : op.setWidth 256 = 0#40 ++ 0#88 ++ 0#64 ++ 0#47 ++ 0#1 ++ 0#8 ++ 0#5 ++ op := by
    revert op; decide
  rw [hmask, hop, packCommand]
  show (_ : BitVec (40 + 88 + 64 + 47 + 1 + 8 + 5 + 3)) &&& _ = _
  simp only [append_and_append, BitVec.and_allOnes, BitVec.and_zero]

/-- A reserved row's mask is `OP` alone. -/
theorem reserved_masked (cmd : Word256) (op : OpCode) (h : cmd.extractLsb' 0 3 = op) :
    cmd &&& 7#256 = op.setWidth 256 := by
  subst h
  have hw : cmd = cmd.extractLsb' 3 253 ++ cmd.extractLsb' 0 3 := by
    rw [BitVec.extractLsb'_append_extractLsb'_eq_extractLsb' (by rfl)]
    exact BitVec.extractLsb'_eq_self.symm
  have hz : ∀ op : OpCode, op.setWidth 256 = 0#253 ++ op := by decide
  rw [hz]
  conv_lhs => rw [hw]
  rw [show 7#256 = 0#253 ++ BitVec.allOnes 3 from rfl]
  show (_ : BitVec (253 + 3)) &&& _ = _
  simp only [append_and_append, BitVec.and_allOnes, BitVec.and_zero]

theorem enc (o : Operands) : Statement (.enc o) := fun _ => packCommand_masked _ o
theorem dec (o : Operands) : Statement (.dec o) := fun _ => packCommand_masked _ o
theorem lsym (o : Operands) : Statement (.lsym o) := fun _ => packCommand_masked _ o
theorem lval (o : Operands) : Statement (.lval o) := fun _ => packCommand_masked _ o
theorem reservedOp4 (cmd : Word256) : Statement (.reservedOp4 cmd) :=
  fun h => reserved_masked cmd _ (eq_of_beq h)
theorem reservedOp5 (cmd : Word256) : Statement (.reservedOp5 cmd) :=
  fun h => reserved_masked cmd _ (eq_of_beq h)
theorem reservedOp6 (cmd : Word256) : Statement (.reservedOp6 cmd) :=
  fun h => reserved_masked cmd _ (eq_of_beq h)
theorem reservedOp7 (cmd : Word256) : Statement (.reservedOp7 cmd) :=
  fun h => reserved_masked cmd _ (eq_of_beq h)

end Sys2Proof.Laws.RowMatch
end

