-- ==== Sys2Proof/Laws/Step.lean ====
section
/-! SUPPORT. What a step can do, said once: the four cases of spec/70_reset_and_hazards.md R233. -/

namespace Sys2Proof.Machine

/-- The state after one rising edge (R233). -/
def edgeState (s : State) : State :=
  if (pins s).rst then resetEdge (nextCycle s)
  else if accepts s then respond (transact s.alphabet (pins s).cmdData) (nextCycle s)
  else if consumes s then consumeResponse (nextCycle s)
  else nextCycle s

/-- Everything a step can do. -/
theorem step_eq (s : State) : step s = .next (edgeState s) := by
  simp only [step, clockEdge, edgeState, performCommand_eq, nextCycle_alphabet]
  split_ifs <;> rfl

theorem stateAfter_one (s : State) : stateAfter 1 s = edgeState s := by
  simp [stateAfter, step_eq]

theorem stateAfter_succ (k : Nat) (s : State) : stateAfter (k + 1) s = stateAfter k (edgeState s) := by
  simp [stateAfter, step_eq]

/-- One more step of any machine behind the host's interface. -/
theorem coreRun_succ (M : Host.Core) (k : Nat) (s t : M.State) (h : M.step s = .next t) :
    M.run (k + 1) s = M.run k t := by
  simp only [Host.Core.run, h]

/-- A run of k steps always reaches `stateAfter k`. -/
theorem run_eq (k : Nat) (s : State) : Sys2Proof.core.run k s = .next (stateAfter k s) := by
  induction k generalizing s with
  | zero => rfl
  | succ k ih =>
    rw [stateAfter_succ, ← ih]
    exact coreRun_succ Sys2Proof.core k s (edgeState s) (step_eq s)

/-- A reset edge accepts nothing (R230). -/
theorem accepts_of_rst (s : State) (h : (pins s).rst = true) : accepts s = false := by
  simp [accepts, cmdReady, h]

@[simp] theorem edgeState_alphabet (s : State) : (edgeState s).alphabet = s.alphabet := by
  simp only [edgeState]; split_ifs <;> rfl

@[simp] theorem edgeState_inputs (s : State) : (edgeState s).inputs = s.inputs.tail := by
  simp only [edgeState]; split_ifs <;> rfl

end Sys2Proof.Machine
end

