-- ==== Sys2Proof/Tests/Slice0.lean ====
section
/-! SUPPORT. The model's own tests.  Expected values are those of spec/95_test_vectors.md (a vector's name
stands in the test's docstring) or are worked out by hand from the rule named; strings hold under the
reference alphabet profile of R103. -/

namespace Sys2Proof.Tests

open Sys2Proof.Machine

/-! ### Helpers -/

/-- The state right after reset with the reference alphabet and these inputs to come. -/
def host (ps : List PortInputs) : State := State.resetWith Config.rfc4648Url ps

/-- A host that presents these four words, W0 first (R60), for one cycle. -/
def send (w0 w1 w2 w3 : BitVec 64) : State := host [presentCommand (asmWords w0 w1 w2 w3)]

/-- `rsp_q` after one step. -/
def rspAfter (s : State) : Option Word256 :=
  match step s with
  | .next t => some t.rspQ
  | .fault _ => none
  | .refused _ => none

/-- Both registers after one step. -/
def registersAfter (s : State) : Option (Bool × Word256) :=
  match step s with
  | .next t => some (t.rspValidQ, t.rspQ)
  | .fault _ => none
  | .refused _ => none

/-- The operands LEN, WIDE, VAL with every lane 0x00. -/
def noLanes (len : BitVec 8) (wide : Bool) (val : Value) : Operands :=
  { len := len, wide := wide, val := val, sym := noSymbols }

/-- The operands of a DEC or LVAL whose lanes are all the same code. -/
def allLanes (len : BitVec 8) (c : Symbol) : Operands :=
  { len := len, wide := false, val := 0#64, sym := lanesOf fun _ => c }

/-! ### Well-formedness: an ill-formed term for each check -/

theorem test_reserved4_needs_op4 : (Instr.reservedOp4 0x0C#256).wellFormed = true ∧
    (Instr.reservedOp4 0x0D#256).wellFormed = false := by decide

theorem test_reserved5_needs_op5 : (Instr.reservedOp5 0x0C#256).wellFormed = false := by decide

theorem test_reserved6_needs_op6 : (Instr.reservedOp6 0x0F#256).wellFormed = false := by decide

theorem test_reserved7_needs_op7 : (Instr.reservedOp7 0x0E#256).wellFormed = false := by decide

theorem test_repeated_symbol_refused : ¬ Alphabet.Distinct (Config.rfc4648Url.set 63 0x41#8) := by
  intro h; exact h 0 63 (by decide) (by decide)

theorem test_space_refused : ¬ Alphabet.PrintableAscii (Config.rfc4648Url.set 5 0x20#8) := by
  intro h; exact absurd (h 5).1 (by decide)

theorem test_delete_code_refused : ¬ Alphabet.PrintableAscii (Config.rfc4648Url.set 5 0x7F#8) := by
  intro h; exact absurd (h 5).2 (by decide)

/-- R103: the reference profile is admissible. -/
theorem reference_admissible : Alphabet.Admissible Config.rfc4648Url := by decide +kernel

/-! ### Decoding: one word written from R60 for each constructor -/

/-- EN22: `ENC 5, 2^64+1`. -/
theorem test_decode_enc : decode (asmWords 0x10500 1 0 0) = .ok (.enc (noLanes 5#8 true 1#64)) := by decide

/-- DE3: `DEC "az"`, lane 0 = 0x61 at bits 135:128, lane 1 = 0x7A. -/
theorem test_decode_dec : decode (asmWords 0x201 0 0x7A61 0) = .ok (.dec {
    len := 2#8, wide := false, val := 0#64,
    sym := #v[0x61#8, 0x7A#8, 0#8, 0#8, 0#8, 0#8, 0#8, 0#8, 0#8, 0#8, 0#8] }) := by decide

/-- LS7: `LSYM 63` with LEN = 7. -/
theorem test_decode_lsym : decode (asmWords 0x702 0x3F 0 0) = .ok (.lsym (noLanes 7#8 false 63#64)) := by
  decide

/-- R60: OP 3 with lane 10 (bits 215:208) = 0x2A and lane 7 (bits 191:184) = 0x41. -/
theorem test_decode_lval : decode (asmWords 3 0 0x4100000000000000 0x2A0000) = .ok (.lval {
    len := 0#8, wide := false, val := 0#64,
    sym := #v[0#8, 0#8, 0#8, 0#8, 0#8, 0#8, 0#8, 0x41#8, 0#8, 0#8, 0x2A#8] }) := by decide

/-- IL1 to IL4, and OP 4 with every other bit set (R201). -/
theorem test_decode_reserved : decode 4#256 = .ok (.reservedOp4 4#256) ∧
    decode 5#256 = .ok (.reservedOp5 5#256) ∧ decode 6#256 = .ok (.reservedOp6 6#256) ∧
    decode 7#256 = .ok (.reservedOp7 7#256) ∧
    decode (~~~3#256) = .ok (.reservedOp4 (~~~3#256)) := by decide

/-- IL5 (bit 3), IL6 (bit 17), IL8 (bit 63), IL7 (bit 216), and bits 7 and 255: no row. -/
theorem test_decode_reserved_bits : decode 0x108#256 = .error (.reservedBits 0#3) ∧
    decode (asmWords 0x20101 0 0x41 0) = .error (.reservedBits 1#3) ∧
    decode (asmWords 0x8000000000000003 0 0x41 0) = .error (.reservedBits 3#3) ∧
    decode (asmWords 0x101 0 0x41 0x1000000) = .error (.reservedBits 1#3) ∧
    decode 0x82#256 = .error (.reservedBits 2#3) ∧
    decode (asmWords 2 0 0 0x8000000000000000) = .error (.reservedBits 2#3) := by decide

/-- The opcode table: two different rows never match one word. -/
theorem test_rows_disjoint :
    opcodeRows.Pairwise fun r q => (r.1 ^^^ q.1) &&& r.2 &&& q.2 ≠ 0#256 := by decide

/-- A table word is given in the table's bit numbers, the bits above `nbits` zero. -/
theorem test_table_word : decodeTableWord 8 5 = some (.reservedOp5 5#256) ∧
    decodeTableWord 256 0x10500 = some (.enc (noLanes 5#8 true 0#64)) ∧
    decodeTableWord 8 0x10500 = some (.enc (noLanes 0#8 false 0#64)) := by decide

/-! ### One step of each instruction, from reset -/

/-- EN18: every digit position distinct. -/
theorem test_enc_digits : rspAfter (send 0xB00 0x0123456789ABCDEF 0 0) =
    some (asmWords 0xB0000 0 0x714A6557526A4541 0x763338) := by decide

/-- EN26: LEN = 0 and WIDE = 1: ILEN wins. -/
theorem test_enc_length_first : rspAfter (send 0x10000 0 0 0) = some (asmWords 1 0 0 0) := by decide

/-- DE9: the inverse of EN18. -/
theorem test_dec_value : rspAfter (send 0xB01 0 0x714A6557526A4541 0x763338) =
    some (asmWords 0xB0100 0x0123456789ABCDEF 0 0) := by decide

/-- DE21: an invalid character and an overflowing first digit: ICHAR wins. -/
theorem test_dec_ichar_before_range : rspAfter (send 0xB01 0 0x5F5F5F5F5F5F5F51 0x2A5F5F) =
    some (asmWords 0x102 0 0 0) := by decide

/-- LS7: LEN ignored. -/
theorem test_lsym_63 : rspAfter (send 0x702 0x3F 0 0) = some (asmWords 0x10200 0 0x5F 0) := by decide

/-- LS10: WIDE = 1 overrides VAL = 5. -/
theorem test_lsym_wide : rspAfter (send 0x10002 5 0 0) = some (asmWords 0x203 0 0 0) := by decide

/-- LV4: `9` is 61. -/
theorem test_lval_9 : rspAfter (send 3 0 0x39 0) = some (asmWords 0x10300 0x3D 0 0) := by decide

/-- LV8: `+` is not a member. -/
theorem test_lval_plus : rspAfter (send 3 0 0x2B 0) = some (asmWords 0x302 0 0 0) := by decide

/-- IL1 to IL4, IL7. -/
theorem test_reserved_illegal : rspAfter (send 4 0 0 0) = some 0x404#256 ∧
    rspAfter (send 5 0 0 0) = some 0x504#256 ∧ rspAfter (send 6 0 0 0) = some 0x604#256 ∧
    rspAfter (send 7 0 0 0) = some 0x704#256 ∧
    rspAfter (send 0x101 0 0x41 0x1000000) = some 0x104#256 := by decide

/-- `withFetchWord`: the very next step from reset runs the word (EN7). -/
theorem test_fetch_word_runs : rspAfter (State.reset.withFetchWord 256 (0x3F * 2 ^ 64 + 0x100)) =
    some (asmWords 0x10000 0 0x5F 0) := by decide

/-! ### The clock edge (programs P4 and P5) -/

/-- A block holding the response of `ENC 1, 63`, with these inputs to come. -/
def pending (ps : List PortInputs) : State :=
  { host ps with rspValidQ := true, rspQ := asmWords 0x10000 0 0x5F 0, cmdIndex := 1 }

/-- P4 cycle 2: back-pressure; cycle 3: consume and accept at one edge; cycle 4: consume only. -/
theorem test_handshake :
    registersAfter (pending [⟨false, true, asmDec ['_'], false⟩]) =
      some (true, asmWords 0x10000 0 0x5F 0) ∧
    registersAfter (pending [⟨false, true, asmDec ['_'], true⟩]) = some (true, asmWords 0x10100 0x3F 0 0) ∧
    registersAfter (pending [⟨false, false, 0#256, true⟩]) = some (false, asmWords 0x10000 0 0x5F 0) := by
  decide

/-- P5 cycle 2: reset discards the pending response and accepts nothing. -/
theorem test_reset_discards :
    registersAfter (pending [⟨true, true, asmLval 'B', false⟩]) = some (false, 0#256) := by decide

/-- R74, R62 to R64: text syntax to words, EN21, EN25, DE18, LV10's character, DE14. -/
theorem test_text_syntax : asmEnc 11 (2 ^ 65) = 0x10B00#256 ∧ asmEnc 300 0 = 0xFF00#256 ∧
    asmDec ['A', 'B', '*', 'D'] = asmWords 0x401 0 0x442A4241 0 ∧ presentChar 'é' = 0xFF#8 ∧
    asmDec (List.replicate 12 'A') = asmWords 0xC01 0 0x4141414141414141 0x414141 := by decide

/-- R75, R106: LS10 (`LSYM 2^64+5`), LS7, LV4 and LV8 as the host's lookups. -/
theorem test_source_lookups :
    sourceSymbol Config.rfc4648Url (2 ^ 64 + 5) = .error 3#3 ∧
    sourceSymbol Config.rfc4648Url 63 = .ok 0x5F#8 ∧
    sourceValue Config.rfc4648Url '9' = .ok 61#6 ∧
    sourceValue Config.rfc4648Url '+' = .error 2#3 := by decide

/-- R75: three different statuses (RANGE, ILEN, ICHAR) are the one generic error, whatever the result type. -/
theorem test_generic_error :
    genericError (sourceEncode Config.rfc4648Url 64 1) = none ∧
    genericError (sourceEncode Config.rfc4648Url 63 1) = some [0x5F#8] ∧
    genericError (sourceDecode Config.rfc4648Url []) = none ∧
    genericError (sourceValue Config.rfc4648Url '+') = none ∧
    genericError (sourceSymbol Config.rfc4648Url 64) = none := by decide

/-! ### Witnesses: concrete states and operands that meet each statement's hypotheses -/

theorem witness_DecodeOfEncodeIsTheInstruction :
    (Instr.enc (noLanes 255#8 true 0#64)).wellFormed = true ∧
    (Instr.reservedOp7 (~~~0#256)).wellFormed = true := by decide

theorem witness_DecodedWordIsTheInstructionsEncoding :
    decode (asmWords 0x702 0x3F 0 0) = .ok (.lsym (noLanes 7#8 false 63#64)) := by decide

theorem witness_OperandsAndOperationComeFromTheirBits : ∀ op : OpCode, op.toNat < 4 →
    (packCommand op (noLanes 11#8 true 7#64)).extractLsb' 3 5 = 0#5 ∧
    (packCommand op (noLanes 11#8 true 7#64)).extractLsb' 17 47 = 0#47 ∧
    (packCommand op (noLanes 11#8 true 7#64)).extractLsb' 216 40 = 0#40 ∧
    (packCommand op (noLanes 11#8 true 7#64)).extractLsb' 0 3 = op := by decide

/-- ILEN at N = 0 and N = 12; RANGE at `WIDE = 1`, N = 11 and at 2^60, N = 10; OK at 2^60 − 1, N = 10 and
at 2^64 − 1, N = 11. -/
theorem witness_EncAnswersTheDigitsOrTheError :
    (noLanes 0#8 false 0#64).len.toNat < 1 ∧ 11 < (noLanes 12#8 false 0#64).len.toNat ∧
    (noLanes 11#8 true 0#64).wide = true ∧
    2 ^ (6 * (noLanes 10#8 false 0x1000000000000000#64).len.toNat) ≤ (noLanes 10#8 false 0x1000000000000000#64).val.toNat ∧
    (noLanes 10#8 false 0x0FFFFFFFFFFFFFFF#64).val.toNat < 2 ^ (6 * (noLanes 10#8 false 0#64).len.toNat) ∧
    ((noLanes 11#8 false 0xFFFFFFFFFFFFFFFF#64).len.toNat ≤ 10 →
      (noLanes 11#8 false 0xFFFFFFFFFFFFFFFF#64).val.toNat < 2 ^ (6 * (noLanes 11#8 false 0xFFFFFFFFFFFFFFFF#64).len.toNat)) := by decide +kernel

/-- ILEN at N = 0 and 12; ICHAR with lane 10 of 11 not a member; RANGE for `QAAAAAAAAAA` = 2^64; OK for
`P__________` = 2^64 − 1, the digits being the hypotheses' `d`. -/
theorem witness_DecAnswersTheValueOrTheError :
    (allLanes 0#8 0#8).len.toNat < 1 ∧ 11 < (allLanes 12#8 0#8).len.toNat ∧
    inv Config.rfc4648Url (presentString "AAAAAAAAAA*".toList)[10] = none ∧
    (∀ i : Fin 11, fwd Config.rfc4648Url (if i.val = 0 then 16#6 else 0#6) =
      (presentString "QAAAAAAAAAA".toList)[i]) ∧
    2 ^ 64 ≤ value11 (fun i => if i = 0 then 16#6 else 0#6) ∧
    (∀ i : Fin 11, fwd Config.rfc4648Url (if i.val = 0 then 15#6 else 63#6) =
      (presentString "P__________".toList)[i]) ∧
    value11 (fun i => if i = 0 then 15#6 else 63#6) < 2 ^ 64 := by decide

theorem witness_LsymAnswersTheSymbolOrRange :
    (noLanes 0#8 true 5#64).wide = true ∧ 64 ≤ (noLanes 0#8 false 64#64).val.toNat ∧
    (noLanes 0#8 false 63#64).val.toNat = (63#6).toNat := by decide

theorem witness_LvalAnswersTheValueOrIchar :
    (∀ v : Digit, fwd Config.rfc4648Url v ≠ (allLanes 0#8 0#8).sym[0]) ∧
    fwd Config.rfc4648Url 63#6 = (allLanes 0#8 0x5F#8).sym[0] := by decide

theorem witness_IllegalCommandRecordsStatusAndOpOnly :
    accepts (send 0x108 0 0 0) = true ∧ (pins (send 0x108 0 0 0)).cmdData.extractLsb' 3 5 ≠ 0#5 ∧
    accepts (send 7 0 0 0) = true ∧ 4 ≤ ((pins (send 7 0 0 0)).cmdData.extractLsb' 0 3).toNat := by decide

/-- One word for each clause, at a boundary: OP 4; ENC 12; DEC 11 with lane 10 not a member; LSYM 64; and
LVAL of a member.  Each is legal, and meets none of the conditions that come before its own. -/
theorem witness_StatusIsTheFirstErrorThatApplies :
    illegalWord 4#256 ∧
    (¬ illegalWord 0xC00#256 ∧ badLength 0xC00#256) ∧
    (¬ illegalWord (asmDec "AAAAAAAAAA*".toList) ∧ ¬ badLength (asmDec "AAAAAAAAAA*".toList) ∧
      badCharacter Config.rfc4648Url (asmDec "AAAAAAAAAA*".toList)) ∧
    (¬ illegalWord (asmLsym 64) ∧ ¬ badLength (asmLsym 64) ∧
      ¬ badCharacter Config.rfc4648Url (asmLsym 64) ∧ badRange Config.rfc4648Url (asmLsym 64)) ∧
    (¬ illegalWord (asmLval '_') ∧ ¬ badLength (asmLval '_') ∧
      ¬ badCharacter Config.rfc4648Url (asmLval '_') ∧ ¬ badRange Config.rfc4648Url (asmLval '_')) := by
  refine ⟨by unfold illegalWord; decide, ⟨by unfold illegalWord; decide, by unfold badLength; decide⟩,
    ⟨by unfold illegalWord; decide, by unfold badLength; decide, .inl ⟨by decide, 10, by decide, ?_⟩⟩,
    ⟨by unfold illegalWord; decide, by unfold badLength; decide, ?_, .inr (.inl ⟨by decide, .inr (by decide)⟩)⟩,
    ⟨by unfold illegalWord; decide, by unfold badLength; decide, ?_, ?_⟩⟩
  · unfold isMember; decide
  · rintro (⟨h, -⟩ | ⟨h, -⟩) <;> exact absurd h (by decide)
  · rintro (⟨h, -⟩ | ⟨-, h⟩)
    · exact absurd h (by decide)
    · exact h ⟨63#6, by decide⟩
  · rintro (⟨h, -⟩ | ⟨h, -⟩ | ⟨h, -⟩) <;> exact absurd h (by decide)

theorem witness_ErrorResponseIsStatusAndOpOnly :
    rspStatus (transact Config.rfc4648Url (asmLsym 64)) ≠ 0#3 := by decide

/-- Legal pairs that differ in every ignored field, one for each operation, and a word with a reserved bit:
EN27 against EN1, DE22 against `DEC "AAB"`, LS11 against `LSYM 5`, LV11 against `LVAL 'A'`, IL5. -/
theorem witness_IgnoredFieldsDoNotChangeTheResponse :
    (∀ c ∈ [asmWords 0x100 0 0x2A2A2A2A2A2A2A2A 0x2A, asmWords 0x100 0 0 0,
        asmWords 0x10301 5 0x2A2A2A2A2A424141 0, asmWords 0x301 0 0x424141 0,
        asmWords 2 5 0x7A7A7A7A 0, asmWords 2 5 0 0,
        asmWords 0x10903 0x4D 0x2A41 0, asmWords 3 0 0x41 0], ¬ illegalWord c) ∧
    (∀ i < 3, wordLane (asmWords 0x10301 5 0x2A2A2A2A2A424141 0) i = wordLane (asmWords 0x301 0 0x424141 0) i) ∧
    (0x108#256).extractLsb' 3 5 ≠ 0#5 := by
  refine ⟨fun c hc => ?_, by decide, by decide⟩
  simp only [List.mem_cons, List.not_mem_nil, or_false] at hc
  rcases hc with rfl | rfl | rfl | rfl | rfl | rfl | rfl | rfl <;> unfold illegalWord <;> decide

theorem witness_LutDirectionsArePerfectInverses :
    (noLanes 0#8 false 63#64).wide = false ∧ (noLanes 0#8 false 63#64).val.toNat = (63#6).toNat ∧
    rspAfter (send 2 63 0 0) = some (asmWords 0x10200 0 0x5F 0) ∧
    (allLanes 0#8 0x5F#8).sym[0] = wordLane (asmWords 0x10200 0 0x5F 0) 0 := by decide

theorem witness_FixedPositionExtractorAgrees :
    (63#64).toNat < 2 ^ (6 * 1) ∧ ¬ (64#64).toNat < 2 ^ (6 * 1) ∧ extract (~~~0#64) 11 0 = 15#6 := by decide

theorem witness_EncodedDigitsSumToTheValue :
    (0x0FFFFFFFFFFFFFFF#64).toNat < 2 ^ (6 * 10) ∧ ((11 : Nat) ≤ 10 → (0xFFFFFFFFFFFFFFFF#64).toNat < 2 ^ (6 * 11)) := by decide +kernel

theorem witness_OverflowIffFirstDigitAtLeast16 :
    (List.replicate 11 63#6).length = 11 ∧ (List.replicate 10 63#6).length ≤ 10 ∧
    (16#6 :: List.replicate 10 0#6).length = 11 := by decide

theorem witness_FixedPositionComposerAgrees :
    1 ≤ [63#6].length ∧ (List.replicate 11 63#6).length ≤ 11 := by decide

theorem witness_IncrementalOverflowCheckAgrees :
    composeIncremental (15#6 :: List.replicate 10 63#6) 0 = some (2 ^ 64 - 1) ∧
    composeIncremental (16#6 :: List.replicate 10 0#6) 0 = none := by decide

/-- EN19 and DE7: 2^64 − 1 at N = 11. -/
theorem witness_DecOfEncReturnsTheValue :
    rspAfter (send 0xB00 (~~~0) 0 0) = some (asmWords 0xB0000 0 0x5F5F5F5F5F5F5F50 0x5F5F5F) ∧
    (∀ i : Fin 11, (presentString "P__________".toList)[i] =
      wordLane (asmWords 0xB0000 0 0x5F5F5F5F5F5F5F50 0x5F5F5F) i.val) := by decide

/-- DE7: an eleven-character DEC that succeeds. -/
theorem witness_EncOfDecReturnsTheLanes :
    rspAfter (send 0xB01 0 0x5F5F5F5F5F5F5F50 0x5F5F5F) = some (asmWords 0xB0100 (~~~0) 0 0) ∧
    rspStatus (asmWords 0xB0100 (~~~0) 0 0) = 0#3 ∧ rspRlen (asmWords 0xB0100 (~~~0) 0 0) = 11#8 := by decide

theorem witness_StepRunsTheAcceptedInstruction :
    accepts (send 0x702 0x3F 0 0) = true ∧
    decode (pins (send 0x702 0x3F 0 0)).cmdData = .ok (.lsym (noLanes 7#8 false 63#64)) := by decide

/-- A state for each clause: reset, accept with and without a pending response, consume, hold, idle. -/
theorem witness_ClockEdgeFollowsTheRegisterRule :
    (pins (pending [⟨true, true, 0#256, true⟩])).rst = true ∧
    accepts (pending [⟨false, true, 0#256, true⟩]) = true ∧ accepts (host [⟨false, true, 0#256, false⟩]) = true ∧
    consumes (pending [⟨false, false, 0#256, true⟩]) = true ∧
    cmdReady (pending [⟨false, true, 0#256, false⟩]) = false ∧ pins State.reset = PortInputs.idle := by decide

theorem witness_PendingResponseHoldsStill :
    registersAfter (send 3 0 0x41 0) = some (true, 0x10300#256) ∧
    rspValid (pending [⟨false, true, 0#256, false⟩]) = true ∧
    consumes (pending [⟨false, true, 0#256, false⟩]) = false := by decide

theorem witness_CommandDataCountsOnlyWhenAccepted :
    accepts (pending [⟨false, true, 0x100#256, false⟩]) = false ∧
    accepts (host [⟨true, true, 0x100#256, true⟩]) = false := by decide

theorem witness_ResponseDependsOnTheCommandAlone :
    accepts (pending [presentCommand 0x100#256]) = true ∧ accepts (host [presentCommand 0x100#256]) = true ∧
    (pins (pending [presentCommand 0x100#256])).cmdData = (pins (host [presentCommand 0x100#256])).cmdData := by
  decide

theorem witness_ResetEdgeClearsTheRegisters :
    (pins (pending [⟨true, true, 0x100#256, true⟩])).rst = true := by decide

theorem witness_OneResetEdgeBootsTheBlock :
    (pins (State.powerUp Config.rfc4648Url [⟨true, false, 0#256, false⟩])).rst = true := rfl

/-- P4's cycles 2 to 4: a run without a reset edge in which commands are accepted and held. -/
theorem witness_ResponsesComeOncePerCommandInOrder :
    noResetIn 3 (pending [⟨false, true, 1#256, false⟩, ⟨false, true, 1#256, true⟩, ⟨false, false, 0#256, true⟩]) ∧
    acceptedIn 3 (pending [⟨false, true, 1#256, false⟩, ⟨false, true, 1#256, true⟩,
      ⟨false, false, 0#256, true⟩]) = [1#256] := by
  unfold noResetIn; decide

theorem witness_BackToBackCommandsTakeOneClockEach :
    (host (([0x100#256, 7#256].map presentCommand) ++ [⟨false, false, 0#256, true⟩])).inputs =
      [0x100#256, 7#256].map presentCommand ++ [⟨false, false, 0#256, true⟩] := rfl

theorem witness_EveryStepKeepsTheResponseRegisterLegal :
    Inv (send 0xB00 (~~~0) 0 0) ∧ ∃ t, step (send 0xB00 (~~~0) 0 0) = .next t :=
  ⟨⟨reference_admissible, .inr ⟨rfl, rfl⟩⟩, _, rfl⟩

/-- Length −1 and 12; a negative value, 2^64 and 2^(6N); and the largest value at N = 11. -/
theorem witness_SourceEncodeOfAnyIntegers :
    ((-1 : Int) < 1 ∧ (11 : Int) < 12) ∧ ((-1 : Int) < 0 ∧ (2 : Int) ^ 64 ≤ 2 ^ 64 ∧ (2 : Int) ^ (6 * 10) ≤ 2 ^ 60) ∧
    (2 ^ 64 - 1 : Nat) < 2 ^ 64 ∧ (2 ^ 64 - 1 : Nat) < 2 ^ (6 * 11) := by decide

/-- The empty string, 12 characters, a non-ASCII character, and `QAAAAAAAAAA` and `_` with their digits. -/
theorem witness_SourceDecodeOfAnyString :
    ([] : List Char).length < 1 ∧ 11 < (List.replicate 12 'A').length ∧
    (∀ v : Digit, (fwd Config.rfc4648Url v).toNat ≠ 'é'.toNat) ∧
    (∀ i : Fin 11, (fwd Config.rfc4648Url (if i.val = 0 then 16#6 else 0#6)).toNat =
      ("QAAAAAAAAAA".toList[i.val]'(by exact i.isLt)).toNat) ∧
    (fwd Config.rfc4648Url 63#6).toNat = '_'.toNat := by decide

/-- -1, 64 and 2^64 + 5; a non-ASCII character; and the last symbol. -/
theorem witness_SourceLookupsArePerfectInverses :
    ((-1 : Int) < 0 ∧ (64 : Int) ≤ 64 ∧ (64 : Int) ≤ 2 ^ 64 + 5) ∧
    (∀ v : Digit, (fwd Config.rfc4648Url v).toNat ≠ 'é'.toNat) ∧
    (fwd Config.rfc4648Url 63#6).toNat = '_'.toNat := by decide

/-- The statement's one hypothesis. -/
theorem witness_GenericErrorIsExactlyOutsideTheDomain : Alphabet.Admissible Config.rfc4648Url :=
  reference_admissible

theorem witness_SourceRoundTripReturnsTheValue :
    (2 ^ 64 - 1 : Nat) < 2 ^ 64 ∧ (2 ^ 64 - 1 : Nat) < 2 ^ (6 * 11) ∧ (63 : Nat) < 2 ^ (6 * 1) := by decide

end Sys2Proof.Tests
end

/-! SUPPORT. The state after an edge, case by case (spec/70_reset_and_hazards.md R233). -/

namespace Sys2Proof.Machine

/-- An accepting edge is no reset edge (R230). -/
theorem rst_of_accepts {s : State} (h : accepts s = true) : (pins s).rst = false := by
  by_contra hr
  rw [accepts_of_rst s (Bool.not_eq_false _ ▸ hr)] at h
  cases h

theorem edgeState_of_rst {s : State} (h : (pins s).rst = true) :
    edgeState s = resetEdge (nextCycle s) := by
  rw [edgeState, if_pos h]

theorem edgeState_of_accepts {s : State} (h : accepts s = true) :
    edgeState s = respond (transact s.alphabet (pins s).cmdData) (nextCycle s) := by
  rw [edgeState, if_neg (by simp [rst_of_accepts h]), if_pos h]

/-- Everything an edge can do to the state (R233). -/
theorem edgeState_cases (s : State) :
    ((pins s).rst = true ∧ edgeState s = resetEdge (nextCycle s)) ∨
    (accepts s = true ∧
      edgeState s = respond (transact s.alphabet (pins s).cmdData) (nextCycle s)) ∨
    (accepts s = false ∧ consumes s = true ∧ edgeState s = consumeResponse (nextCycle s)) ∨
    (accepts s = false ∧ consumes s = false ∧ edgeState s = nextCycle s) := by
  by_cases hr : (pins s).rst = true
  · exact .inl ⟨hr, edgeState_of_rst hr⟩
  by_cases ha : accepts s = true
  · exact .inr (.inl ⟨ha, edgeState_of_accepts ha⟩)
  by_cases hc : consumes s = true
  · exact .inr (.inr (.inl ⟨by simpa using ha, hc,
      by rw [edgeState, if_neg hr, if_neg ha, if_pos hc]⟩))
  · exact .inr (.inr (.inr ⟨by simpa using ha, by simpa using hc,
      by rw [edgeState, if_neg hr, if_neg ha, if_neg hc]⟩))

/-- The index of commands counts the accepting edges (R22). -/
theorem edgeState_cmdIndex (s : State) :
    (edgeState s).cmdIndex = s.cmdIndex + (if accepts s then 1 else 0) := by
  obtain ⟨hr, he⟩ | ⟨ha, he⟩ | ⟨ha, -, he⟩ | ⟨ha, -, he⟩ := edgeState_cases s
  · simp [he, accepts_of_rst s hr]
  all_goals simp [he, ha]

/-- With no response pending and no reset, the block is ready (R27). -/
theorem cmdReady_of_not_rspValidQ {s : State} (hv : s.rspValidQ = false) (hr : (pins s).rst = false) :
    cmdReady s = true := by
  simp [cmdReady, hv, hr]

end Sys2Proof.Machine

/-! SUPPORT. Every response meets the response rules (spec/30_encoding.md R66, R67,
spec/60_exceptions.md R200, R203): first an error response, a string response and an integer response, then
the result of each operation. -/

namespace Sys2Proof.Machine

theorem errorStatus_range (k : ErrorKind) : errorStatus k ≠ 0#3 ∧ (errorStatus k).toNat ≤ 4 := by
  cases k <;> decide

theorem errorResponse_wellFormed (a : Alphabet) (op : OpCode) (k : ErrorKind) :
    ResponseWellFormed a (packResponse (errorResponse op k)) := by
  obtain ⟨hne, hle⟩ := errorStatus_range k
  have hst : rspStatus (packResponse (errorResponse op k)) = errorStatus k := rspStatus_packResponse _
  exact {
    zeros := zeros_packResponse _
    status := hst ▸ hle
    error := fun _ => ⟨rspRlen_packResponse _, rspRval_packResponse _,
      fun i hi => (wordLane_packResponse _ i hi).trans (getElem_noSymbols i hi)⟩
    success := fun h => absurd (hst.symm.trans h) hne
    string := fun h => absurd (hst.symm.trans h) hne
    integer := fun h => absurd (hst.symm.trans h) hne
    single := fun h => absurd (hst.symm.trans h) hne }

/-- A string result (ENC, LSYM): RLEN members, 0x00 beyond them, RVAL 0 (R67). -/
theorem stringResponse_wellFormed {a : Alphabet} {op : OpCode} {len : BitVec 8} {f : Nat → Symbol}
    (hop : op = 0#3 ∨ op = 2#3) (hmin : 1 ≤ len.toNat) (hmax : len.toNat ≤ 11)
    (hone : op = 2#3 → len = 1#8) (hin : ∀ i < len.toNat, isMember a (f i))
    (hout : ∀ i, len.toNat ≤ i → f i = 0#8) :
    ResponseWellFormed a
      (packResponse (successResponse op { rlen := len, rval := 0#64, rsym := lanesOf f })) := by
  have hlane : ∀ i < 11, wordLane (packResponse (successResponse op
      { rlen := len, rval := 0#64, rsym := lanesOf f })) i = f i := fun i hi =>
    (wordLane_packResponse _ i hi).trans (getElem_lanesOf f i hi)
  constructor <;> simp only [rspStatus_packResponse, rspRop_packResponse, rspRlen_packResponse,
    rspRval_packResponse, successResponse]
  case zeros => exact zeros_packResponse _
  case status => decide
  case error => exact fun h => absurd rfl h
  case success => exact fun _ => ⟨by rcases hop with rfl | rfl <;> decide, hmin, hmax⟩
  case string =>
    refine fun _ _ => ⟨trivial, fun i hi => ?_, fun i hi hle => ?_⟩
    · exact (hlane i (hi.trans_le hmax)).symm ▸ hin i hi
    · exact (hlane i hi).trans (hout i hle)
  case integer => rcases hop with rfl | rfl <;> exact fun _ h => absurd h (by decide)
  case single =>
    exact fun _ h => hone (h.resolve_right (by rintro rfl; exact absurd hop (by decide)))

/-- An integer result (DEC, LVAL): RVAL fits RLEN digits, all lanes 0x00 (R67, R121). -/
theorem integerResponse_wellFormed (a : Alphabet) {op : OpCode} {len : BitVec 8} {val : Value}
    (hop : op = 1#3 ∨ op = 3#3) (hmin : 1 ≤ len.toNat) (hmax : len.toNat ≤ 11)
    (hone : op = 3#3 → len = 1#8) (hval : val.toNat < 2 ^ (6 * len.toNat)) :
    ResponseWellFormed a
      (packResponse (successResponse op { rlen := len, rval := val, rsym := noSymbols })) := by
  constructor <;> simp only [rspStatus_packResponse, rspRop_packResponse, rspRlen_packResponse,
    rspRval_packResponse, successResponse]
  case zeros => exact zeros_packResponse _
  case status => decide
  case error => exact fun h => absurd rfl h
  case success => exact fun _ => ⟨by rcases hop with rfl | rfl <;> decide, hmin, hmax⟩
  case string => rcases hop with rfl | rfl <;> exact fun _ h => absurd h (by decide)
  case integer =>
    exact fun _ _ => ⟨hval, fun i hi => (wordLane_packResponse _ i hi).trans (getElem_noSymbols i hi)⟩
  case single =>
    exact fun _ h => hone (h.resolve_left (by rintro rfl; exact absurd hop (by decide)))

/-- An operation's response is well formed once its success is: an error's always is. -/
theorem answer_wellFormed {a : Alphabet} {op : OpCode} {r : Except ErrorKind Payload}
    (h : ∀ p, r = .ok p → ResponseWellFormed a (packResponse (successResponse op p))) :
    ResponseWellFormed a (packResponse (answer op r)) := by
  cases r with
  | ok p => exact h p rfl
  | error k => exact errorResponse_wellFormed a op k

/-! ### What a success of each operation answers -/

/-- ENC succeeds for a length in [1,11] only, with the encoded lanes (R122). -/
theorem encResult_eq_ok {a : Alphabet} {o : Operands} {p : Payload} (h : encResult a o = .ok p) :
    lengthOk o.len.toNat = true ∧
    p = { rlen := o.len, rval := 0#64, rsym := lanesOf (encodedLane a o.val o.len.toNat) } := by
  unfold encResult at h
  split_ifs at h with hlen _ _
  cases h
  exact ⟨by simpa using hlen, rfl⟩

/-- DEC succeeds for a length in [1,11] only, with the composed digits of its lanes (R142). -/
theorem decResult_eq_ok {a : Alphabet} {o : Operands} {p : Payload} (h : decResult a o = .ok p) :
    lengthOk o.len.toNat = true ∧
    ∃ ds, lookupAll a (usedLanes o.sym o.len.toNat) = some ds ∧
      p = { rlen := o.len, rval := (composeRaw ds).extractLsb' 0 64, rsym := noSymbols } := by
  unfold decResult at h
  split_ifs at h with hlen
  split at h
  case h_1 => cases h
  case h_2 ds hds =>
    split_ifs at h
    cases h
    exact ⟨by simpa using hlen, ds, hds, rfl⟩

/-- LSYM succeeds with the symbol of `VAL[5:0]` in lane 0 (R104). -/
theorem lsymResult_eq_ok {a : Alphabet} {o : Operands} {p : Payload} (h : lsymResult a o = .ok p) :
    p = { rlen := 1#8, rval := 0#64,
          rsym := lanesOf fun i => if i = 0 then fwd a (o.val.extractLsb' 0 6) else 0#8 } := by
  unfold lsymResult at h
  split_ifs at h
  cases h; rfl

/-- LVAL succeeds with a digit, zero-extended (R105). -/
theorem lvalResult_eq_ok {a : Alphabet} {o : Operands} {p : Payload} (h : lvalResult a o = .ok p) :
    ∃ v : Digit, p = { rlen := 1#8, rval := v.setWidth 64, rsym := noSymbols } := by
  unfold lvalResult at h
  split at h
  case h_1 => cases h
  case h_2 v _ => cases h; exact ⟨v, rfl⟩

/-- The value of n digits is below 2^(6n), also when it is cut to 64 bits (R140, R146). -/
theorem composeRaw_low_lt (ds : List Digit) (h : ds.length ≤ 11) :
    ((composeRaw ds).extractLsb' 0 64).toNat < 2 ^ (6 * ds.length) := by
  calc ((composeRaw ds).extractLsb' 0 64).toNat
      ≤ (composeRaw ds).toNat := by
        rw [BitVec.extractLsb'_toNat, Nat.shiftRight_zero]; exact Nat.mod_le _ _
    _ = compose ds := toNat_composeRaw ds h
    _ < 64 ^ ds.length := compose_lt ds
    _ = 2 ^ (6 * ds.length) := by rw [pow_mul]; norm_num

/-- The lookups of the lanes in use give one digit for each (R142). -/
theorem length_of_lookupAll_usedLanes {a : Alphabet} {sym : Lanes} {n : Nat} {ds : List Digit}
    (hn : n ≤ 11) (h : lookupAll a (usedLanes sym n) = some ds) : ds.length = n :=
  ((lookupAll_eq_some_iff a _ ds).mp h).length_eq.symm.trans (length_usedLanes sym n hn)

/-! ### The operations -/

section Operations
variable (a : Alphabet) (o : Operands)

theorem encAnswer_wellFormed : ResponseWellFormed a (packResponse (answer 0#3 (encResult a o))) := by
  refine answer_wellFormed fun p hp => ?_
  obtain ⟨hlen, rfl⟩ := encResult_eq_ok hp
  obtain ⟨hmin, hmax⟩ := (lengthOk_iff _).mp hlen
  refine stringResponse_wellFormed (.inl rfl) hmin hmax (fun h => absurd h (by decide))
    (fun i hi => ?_) fun i hi => ?_
  · exact ⟨extract o.val o.len.toNat i, (if_pos hi).symm⟩
  · exact if_neg (by omega)

theorem decAnswer_wellFormed : ResponseWellFormed a (packResponse (answer 1#3 (decResult a o))) := by
  refine answer_wellFormed fun p hp => ?_
  obtain ⟨hlen, ds, hds, rfl⟩ := decResult_eq_ok hp
  obtain ⟨hmin, hmax⟩ := (lengthOk_iff _).mp hlen
  have hn := length_of_lookupAll_usedLanes hmax hds
  exact integerResponse_wellFormed a (.inl rfl) hmin hmax (fun h => absurd h (by decide))
    (hn ▸ composeRaw_low_lt ds (hn.trans_le hmax))

theorem lsymAnswer_wellFormed : ResponseWellFormed a (packResponse (answer 2#3 (lsymResult a o))) := by
  refine answer_wellFormed fun p hp => ?_
  obtain rfl := lsymResult_eq_ok hp
  refine stringResponse_wellFormed (.inr rfl) (by decide) (by decide) (fun _ => rfl)
    (fun i hi => ?_) fun i hi => ?_
  · obtain rfl : i = 0 := Nat.lt_one_iff.mp hi
    exact ⟨_, (if_pos rfl).symm⟩
  · exact if_neg (Nat.one_le_iff_ne_zero.mp hi)

theorem lvalAnswer_wellFormed : ResponseWellFormed a (packResponse (answer 3#3 (lvalResult a o))) := by
  refine answer_wellFormed fun p hp => ?_
  obtain ⟨v, rfl⟩ := lvalResult_eq_ok hp
  refine integerResponse_wellFormed a (.inr rfl) (by decide) (by decide) (fun _ => rfl) ?_
  rw [BitVec.toNat_setWidth_of_le (by decide)]
  exact v.isLt

end Operations

/-- Every row of the opcode table answers a well-formed response (R67, R203). -/
theorem instrResponse_wellFormed (a : Alphabet) (i : Instr) :
    ResponseWellFormed a (packResponse (instrResponse a i)) := by
  cases i with
  | enc o => exact encAnswer_wellFormed a o
  | dec o => exact decAnswer_wellFormed a o
  | lsym o => exact lsymAnswer_wellFormed a o
  | lval o => exact lvalAnswer_wellFormed a o
  | reservedOp4 | reservedOp5 | reservedOp6 | reservedOp7 => exact errorResponse_wellFormed a _ _

/-- `Exec` answers a well-formed response to every command word, for every alphabet (R70). -/
theorem transact_wellFormed (a : Alphabet) (cmd : Word256) : ResponseWellFormed a (transact a cmd) := by
  cases hd : decode cmd with
  | ok i => exact transact_of_decode a hd ▸ instrResponse_wellFormed a i
  | error e =>
    obtain ⟨op⟩ := e
    exact transact_of_decode_error a hd ▸ errorResponse_wellFormed a op _

/-! ### The invariant -/

/-- Each case of an edge keeps the invariant: a reset leaves the zeros, an accepted command its
well-formed response, and the other edges leave `rsp_q` and never make a response valid. -/
theorem edgeState_keeps_inv {s : State} (h : Inv s) : Inv (edgeState s) := by
  obtain ⟨hadm, hrsp⟩ := h
  refine ⟨by rwa [edgeState_alphabet], ?_⟩
  rw [edgeState_alphabet]
  obtain ⟨-, he⟩ | ⟨-, he⟩ | ⟨-, -, he⟩ | ⟨-, -, he⟩ := edgeState_cases s <;> rw [he]
  · exact .inr ⟨rfl, rfl⟩
  · exact .inl (transact_wellFormed _ _)
  · exact hrsp.imp_right fun ⟨_, hzero⟩ => ⟨rfl, hzero⟩
  · exact hrsp

theorem resetWith_inv {a : Alphabet} (ps : List PortInputs) (h : Alphabet.Admissible a) :
    Inv (State.resetWith a ps) :=
  ⟨h, .inr ⟨rfl, rfl⟩⟩

end Sys2Proof.Machine

/-! The statements about the state: the invariant of the response register, the frame of an edge and of an
instruction, no history, and reset (spec/10_state.md, spec/70_reset_and_hazards.md). -/

namespace Sys2Proof.Machine

/-- Settles O41: a step is `edgeState`, each of whose cases keeps the invariant. -/
theorem everyStepKeepsTheResponseRegisterLegal :
    Obligations.EveryStepKeepsTheResponseRegisterLegal := by
  intro s t hinv hstep
  rw [step_eq] at hstep
  cases hstep
  exact edgeState_keeps_inv hinv

/-- Settles O32, field by field of `edgeState`. -/
theorem stepKeepsTheAlphabetAndCountsCommands : Obligations.StepKeepsTheAlphabetAndCountsCommands :=
  fun s => ⟨edgeState s, step_eq s, edgeState_alphabet s, edgeState_inputs s, edgeState_cmdIndex s⟩

/-- Settles O36: the response of an accepting edge is `Exec` of the alphabet and the word alone. -/
theorem responseDependsOnTheCommandAlone : Obligations.ResponseDependsOnTheCommandAlone := by
  intro s s' halpha hs hs' hcmd
  refine ⟨edgeState s, edgeState s', step_eq s, step_eq s', ?_, ?_⟩ <;>
    simp only [edgeState_of_accepts hs, edgeState_of_accepts hs', respond_rspQ, respond_rspValidQ,
      halpha, hcmd]

/-- Settles O38: a reset edge overwrites both power-up values, and with no response pending the block is
ready. -/
theorem oneResetEdgeBootsTheBlock : Obligations.OneResetEdgeBootsTheBlock := by
  refine ⟨fun a p ps hrst => ?_, rfl, rfl, cmdReady_of_not_rspValidQ rfl rfl⟩
  have hedge : edgeState (State.powerUp a (p :: ps)) = State.resetWith a ps := edgeState_of_rst hrst
  exact ⟨_, (step_eq _).trans (congrArg _ hedge), rfl, cmdReady_of_not_rspValidQ rfl⟩

/-- Settles O12: every instruction ends in `respond`, which writes the response and the index only. -/
theorem everyInstructionWritesOnlyItsResponse : Obligations.EveryInstructionWritesOnlyItsResponse :=
  fun i s => ⟨_, exec_eq i s, respond_alphabet _ s, respond_inputs _ s, respond_rspValidQ _ s,
    respond_cmdIndex _ s⟩

/-- Settles O30: an accepting edge and `exec` leave the same response, `Exec` of the word. -/
theorem stepRunsTheAcceptedInstruction : Obligations.StepRunsTheAcceptedInstruction := by
  intro s i hacc hdec
  calc step s = .next (edgeState s) := step_eq s
    _ = .next (respond (packResponse (instrResponse s.alphabet i)) (nextCycle s)) := by
      rw [edgeState_of_accepts hacc, transact_of_decode _ hdec]
    _ = exec i (nextCycle s) := (exec_eq i (nextCycle s)).symm

/-- Settles O42: reset leaves `rsp_q` zero and not valid; the reference profile is admissible. -/
theorem responseRegisterIsLegalAfterReset : Obligations.ResponseRegisterIsLegalAfterReset :=
  ⟨fun _ ps h => resetWith_inv ps h, resetWith_inv [] Tests.reference_admissible⟩

end Sys2Proof.Machine

/-! SUPPORT. Who drives what at an edge (spec/10_state.md R27): a held response keeps `cmd_ready` at 0, and
`cmd_data` is read by an accepting edge only (R46). -/

namespace Sys2Proof.Machine

theorem accepts_of_not_cmdReady {s : State} (h : cmdReady s = false) : accepts s = false := by
  simp [accepts, h]

/-- A response that is held back blocks the command port (R47). -/
theorem cmdReady_of_held {s : State} (hv : rspValid s = true) (hc : consumes s = false) :
    cmdReady s = false := by
  have hready : (pins s).rspReady = false := by simpa [consumes, hv] using hc
  have hvalid : s.rspValidQ = true := hv
  simp [cmdReady, hready, hvalid]

/-- An edge that accepts a command consumes the pending response exactly when there is one (R27). -/
theorem consumes_of_accepts {s : State} (h : accepts s = true) : consumes s = rspValid s := by
  cases hv : rspValid s with
  | false => simp [consumes, hv]
  | true =>
    by_contra hc
    have hheld := accepts_of_not_cmdReady (cmdReady_of_held hv (Bool.not_eq_true _ ▸ hc))
    rw [h] at hheld
    cases hheld

/-- Without a reset, a held response makes the edge leave both registers alone (R233). -/
theorem edgeState_of_held {s : State} (hr : (pins s).rst = false) (hv : rspValid s = true)
    (hc : consumes s = false) : edgeState s = nextCycle s := by
  have ha := accepts_of_not_cmdReady (cmdReady_of_held hv hc)
  rw [edgeState, hr, ha, hc]
  rfl

/-- An edge that accepts nothing looks at `rst`, at whether it consumes, and at the rest of the state. -/
theorem edgeState_congr_of_not_accepts {s s' : State} (ha : accepts s = false)
    (ha' : accepts s' = false) (hr : (pins s').rst = (pins s).rst) (hc : consumes s' = consumes s)
    (hn : nextCycle s' = nextCycle s) : edgeState s' = edgeState s := by
  rw [edgeState, edgeState, ha, ha', hr, hc, hn]
  rfl

end Sys2Proof.Machine

/-! SUPPORT. Runs (spec/70_reset_and_hazards.md R48): the accounts of a run one edge at a time, and the
balance of responses at one edge without reset. -/

namespace Sys2Proof.Machine

theorem acceptedIn_succ (k : Nat) (s : State) : acceptedIn (k + 1) s =
    (if accepts s then [(pins s).cmdData] else []) ++ acceptedIn k (edgeState s) := by
  rw [acceptedIn, stateAfter_one]

theorem consumedIn_succ (k : Nat) (s : State) : consumedIn (k + 1) s =
    (if consumes s then [rspData s] else []) ++ consumedIn k (edgeState s) := by
  rw [consumedIn, stateAfter_one]

theorem noResetIn_succ {k : Nat} {s : State} (h : noResetIn (k + 1) s) :
    (pins s).rst = false ∧ noResetIn k (edgeState s) := by
  unfold noResetIn at h ⊢
  rw [edgeState_inputs]
  cases hin : s.inputs with
  | nil => exact ⟨by rw [pins_of_nil s hin]; rfl, by simp⟩
  | cons p ps =>
    rw [hin, List.take_succ_cons, List.forall_mem_cons] at h
    rwa [pins_of_cons s p ps hin]

/-- At one edge without reset: what was pending and the response of an accepted command are what is
consumed and what is pending after (R48). -/
theorem edge_balances_responses {s : State} (hr : (pins s).rst = false) :
    pendingResponse s ++ (if accepts s then [(pins s).cmdData] else []).map (transact s.alphabet) =
      (if consumes s then [rspData s] else []) ++ pendingResponse (edgeState s) := by
  obtain ⟨hr', -⟩ | ⟨ha, he⟩ | ⟨ha, hc, he⟩ | ⟨ha, hc, he⟩ := edgeState_cases s
  · rw [hr] at hr'; cases hr'
  · rw [he, ha, consumes_of_accepts ha]; rfl
  · have hv : rspValid s = true := by
      rw [consumes, Bool.and_eq_true] at hc
      exact hc.1
    rw [he, ha, hc, pendingResponse, hv]; rfl
  · rw [he, ha, hc]
    exact List.append_nil _

end Sys2Proof.Machine

/-! The statements about the ports between commands (spec/20_memory.md): a pending response holds still,
`cmd_data` counts only when accepted, and the responses of a run come once each, in order. -/

namespace Sys2Proof.Machine

/-- Settles O33: of the four edges only reset and accept write `rsp_q`, and a held response excludes both
accepting and consuming. -/
theorem pendingResponseHoldsStill : Obligations.PendingResponseHoldsStill := by
  refine ⟨fun s t hstep hne => ?_, fun s hr hv hc => ?_⟩
  · obtain rfl : edgeState s = t := Host.Outcome.next.inj ((step_eq s).symm.trans hstep)
    obtain ⟨hr, -⟩ | ⟨ha, -⟩ | ⟨-, -, he⟩ | ⟨-, -, he⟩ := edgeState_cases s
    · exact .inr hr
    · exact .inl ha
    · exact absurd (by rw [he, consumeResponse_rspQ, nextCycle_rspQ]) hne
    · exact absurd (by rw [he, nextCycle_rspQ]) hne
  · refine ⟨cmdReady_of_held hv hc, edgeState s, step_eq s, ?_⟩
    rw [edgeState_of_held hr hv hc]
    exact ⟨rfl, hv⟩

/-- Settles O34: every handshake signal and the rest of the state are the same for both words, so neither
edge accepts, and an edge that accepts nothing does not read the word. -/
theorem commandDataCountsOnlyWhenAccepted : Obligations.CommandDataCountsOnlyWhenAccepted := by
  intro s p ps cmd hin ha
  cases s with | mk =>
  cases hin
  rw [step_eq, step_eq]
  exact congrArg _ (edgeState_congr_of_not_accepts ha ha rfl rfl rfl)

/-- Settles O39, by induction on the number of edges: each edge balances, and its balance is appended in
front of the rest of the run. -/
theorem responsesComeOncePerCommandInOrder : Obligations.ResponsesComeOncePerCommandInOrder := by
  intro k
  induction k with
  | zero => exact fun s _ => List.append_nil _
  | succ k ih =>
    intro s hno
    obtain ⟨hr, hno'⟩ := noResetIn_succ hno
    have hrest := ih (edgeState s) hno'
    rw [edgeState_alphabet] at hrest
    rw [acceptedIn_succ, consumedIn_succ, stateAfter_succ, List.map_append, ← List.append_assoc,
      edge_balances_responses hr, List.append_assoc, hrest, List.append_assoc]

end Sys2Proof.Machine

/-! SUPPORT. The decoder (spec/30_encoding.md R65, R68, R71): one equation for each `OP`, and the reserved
bits and the illegal words in the bit positions of the field table. -/

namespace Sys2Proof.Machine

section Decode
variable {cmd : Word256}

theorem decode_enc (h : cmdOp cmd = 0#3) (hr : reservedBitsSet cmd = false) :
    decode cmd = .ok (.enc (operandsOf cmd)) := by
  simp [decode, h, hr]

theorem decode_dec (h : cmdOp cmd = 1#3) (hr : reservedBitsSet cmd = false) :
    decode cmd = .ok (.dec (operandsOf cmd)) := by
  simp [decode, h, hr]

theorem decode_lsym (h : cmdOp cmd = 2#3) (hr : reservedBitsSet cmd = false) :
    decode cmd = .ok (.lsym (operandsOf cmd)) := by
  simp [decode, h, hr]

theorem decode_lval (h : cmdOp cmd = 3#3) (hr : reservedBitsSet cmd = false) :
    decode cmd = .ok (.lval (operandsOf cmd)) := by
  simp [decode, h, hr]

theorem decode_reservedOp4 (h : cmdOp cmd = 4#3) : decode cmd = .ok (.reservedOp4 cmd) := by
  simp [decode, h]

theorem decode_reservedOp5 (h : cmdOp cmd = 5#3) : decode cmd = .ok (.reservedOp5 cmd) := by
  simp [decode, h]

theorem decode_reservedOp6 (h : cmdOp cmd = 6#3) : decode cmd = .ok (.reservedOp6 cmd) := by
  simp [decode, h]

theorem decode_reservedOp7 (h : cmdOp cmd = 7#3) : decode cmd = .ok (.reservedOp7 cmd) := by
  simp [decode, h]

end Decode

/-- The reserved bits by their positions (R65). -/
theorem reservedBitsSet_eq_false_iff (cmd : Word256) : reservedBitsSet cmd = false ↔
    cmd.extractLsb' 3 5 = 0#5 ∧ cmd.extractLsb' 17 47 = 0#47 ∧ cmd.extractLsb' 216 40 = 0#40 := by
  simp [reservedBitsSet, cmdRsvd0, cmdRsvd1, cmdRsvd2, and_assoc]

/-- R201's illegal words are those of the decoder: a reserved bit, or a reserved `OP`. -/
theorem illegalWord_iff (cmd : Word256) :
    illegalWord cmd ↔ reservedBitsSet cmd = true ∨ 4 ≤ (cmdOp cmd).toNat := by
  rw [reservedBitsSet_iff, or_assoc, or_assoc]
  rfl

theorem reservedBitsSet_of_not_illegalWord {cmd : Word256} (h : ¬ illegalWord cmd) :
    reservedBitsSet cmd = false :=
  Bool.eq_false_of_not_eq_true fun hr => h ((illegalWord_iff cmd).mpr (.inl hr))

theorem operandsOf_sym (cmd : Word256) (i : Nat) (hi : i < 11) :
    (operandsOf cmd).sym[i] = cmd.extractLsb' (128 + 8 * i) 8 :=
  getElem_lanesOf _ i hi

/-- The decoder reads back every well-formed instruction from its own word (R60, R68). -/
theorem decode_encode {i : Instr} (h : i.wellFormed = true) : decode (encode i) = .ok i := by
  cases i with
  | enc o =>
    rw [encode, decode_enc (cmdOp_packCommand _ o) (reservedBitsSet_packCommand _ o),
      operandsOf_packCommand]
  | dec o =>
    rw [encode, decode_dec (cmdOp_packCommand _ o) (reservedBitsSet_packCommand _ o),
      operandsOf_packCommand]
  | lsym o =>
    rw [encode, decode_lsym (cmdOp_packCommand _ o) (reservedBitsSet_packCommand _ o),
      operandsOf_packCommand]
  | lval o =>
    rw [encode, decode_lval (cmdOp_packCommand _ o) (reservedBitsSet_packCommand _ o),
      operandsOf_packCommand]
  | reservedOp4 cmd => exact decode_reservedOp4 (eq_of_beq h)
  | reservedOp5 cmd => exact decode_reservedOp5 (eq_of_beq h)
  | reservedOp6 cmd => exact decode_reservedOp6 (eq_of_beq h)
  | reservedOp7 cmd => exact decode_reservedOp7 (eq_of_beq h)

/-- `Exec` of an instruction's own word is the instruction's response (R70). -/
theorem transact_encode (a : Alphabet) {i : Instr} (h : i.wellFormed = true) :
    transact a (encode i) = packResponse (instrResponse a i) :=
  transact_of_decode a (decode_encode h)

/-! ### The fields an operation reads (R69) -/

section Congruence
variable (a : Alphabet) (o o' : Operands)

theorem encResult_congr (hlen : o.len = o'.len) (hwide : o.wide = o'.wide) (hval : o.val = o'.val) :
    encResult a o = encResult a o' := by
  simp only [encResult, hlen, hwide, hval]

theorem usedLanes_congr {sym sym' : Lanes} {n : Nat} (hn : n ≤ 11)
    (h : ∀ i (hi : i < 11), i < n → sym[i] = sym'[i]) : usedLanes sym n = usedLanes sym' n := by
  refine List.ext_getElem (by simp only [length_usedLanes _ _ hn]) fun i hi _ => ?_
  rw [length_usedLanes _ _ hn] at hi
  rw [getElem_usedLanes _ _ _ hn hi, getElem_usedLanes _ _ _ hn hi, h i (by omega) hi]

theorem decResult_congr (hlen : o.len = o'.len)
    (hsym : o.len.toNat ≤ 11 → ∀ i (hi : i < 11), i < o.len.toNat → o.sym[i] = o'.sym[i]) :
    decResult a o = decResult a o' := by
  unfold decResult
  rw [← hlen]
  cases hok : lengthOk o.len.toNat with
  | false => rfl
  | true =>
    have hmax := ((lengthOk_iff _).mp hok).2
    rw [usedLanes_congr hmax (hsym hmax)]

theorem lsymResult_congr (hwide : o.wide = o'.wide) (hval : o.val = o'.val) :
    lsymResult a o = lsymResult a o' := by
  simp only [lsymResult, hwide, hval]

theorem lvalResult_congr (hsym : o.sym[0] = o'.sym[0]) : lvalResult a o = lvalResult a o' := by
  simp only [lvalResult, hsym]

end Congruence

end Sys2Proof.Machine

/-! The statements about the command and response words (spec/30_encoding.md): decode and encode agree, each
field sits at its bits, and the fields an operation ignores do not count. -/

namespace Sys2Proof.Machine

/-- Settles O1: each row's packed word is read back field by field. -/
theorem decodeOfEncodeIsTheInstruction : Obligations.DecodeOfEncodeIsTheInstruction :=
  fun _ h => decode_encode h

/-- Settles O2: a word with its reserved bits clear is rebuilt from its fields, and a reserved row carries its
whole word. -/
theorem decodedWordIsTheInstructionsEncoding : Obligations.DecodedWordIsTheInstructionsEncoding := by
  intro cmd i hdec
  obtain ⟨j, hj, hop, hrow⟩ | ⟨herr, -, -⟩ := decode_cases cmd
  · obtain rfl : j = i := Except.ok.inj (hj.symm.trans hdec)
    obtain ⟨hr, hlegal⟩ | hres := hrow
    · have hpack : packCommand (instrOp j) (operandsOf cmd) = cmd := hop ▸ packCommand_operandsOf cmd hr
      rcases hlegal with rfl | rfl | rfl | rfl <;> exact ⟨rfl, hpack⟩
    · rcases hres with rfl | rfl | rfl | rfl <;> exact ⟨beq_of_eq hop.symm, rfl⟩
  · rw [hdec] at herr; cases herr

/-- Settles O3: of the decoder's answers only the reserved-bit error is no row, and it needs an `OP` below
4. -/
theorem decoderRefusesExactlyReservedBitWords : Obligations.DecoderRefusesExactlyReservedBitWords := by
  intro cmd
  rw [← reservedBitsSet_eq_false_iff, Bool.not_eq_false]
  obtain ⟨i, hdec, hop, hrow⟩ | ⟨hdec, hr, hlt⟩ := decode_cases cmd
  · refine iff_of_false (by simp [hdec]) ?_
    rintro ⟨hlt, hset⟩
    change (cmdOp cmd).toNat < 4 at hlt
    rw [← hop] at hlt
    obtain ⟨hclear, -⟩ | hres := hrow
    · rw [hset] at hclear; cases hclear
    · rcases hres with rfl | rfl | rfl | rfl <;> simp [instrOp] at hlt
  · exact iff_of_true ⟨_, hdec⟩ ⟨hlt, hr⟩

/-- Settles O6, field by field of the packed response. -/
theorem responseFieldsSitAtTheirBits : Obligations.ResponseFieldsSitAtTheirBits := by
  intro r
  obtain ⟨hgap0, hgap1, hgap2, hgap3⟩ := zeros_packResponse r
  exact ⟨rspStatus_packResponse r, hgap0, rspRop_packResponse r, hgap1, rspRlen_packResponse r, hgap2,
    rspRval_packResponse r, wordLane_packResponse r, hgap3⟩

/-- Settles O16: every row's response is well formed, and so is the IllegalCommand error. -/
theorem everyResponseIsWellFormed : Obligations.EveryResponseIsWellFormed := transact_wellFormed

/-- Settles O17: each operation's result is a function of the fields it reads, and a set reserved bit takes
the IllegalCommand error. -/
theorem ignoredFieldsDoNotChangeTheResponse : Obligations.IgnoredFieldsDoNotChangeTheResponse := by
  intro a c c'
  refine ⟨fun hc hc' hop => ?_, fun hset => ?_⟩
  · have hr := reservedBitsSet_of_not_illegalWord hc
    have hr' := reservedBitsSet_of_not_illegalWord hc'
    refine ⟨fun h hlen hwide hval => ?_, fun h hlen hsym => ?_, fun h hwide hval => ?_, fun h hsym => ?_⟩
    · rw [transact_enc a h hr, transact_enc a (hop.symm.trans h) hr',
        encResult_congr a (operandsOf c) (operandsOf c') hlen hwide hval]
    · rw [transact_dec a h hr, transact_dec a (hop.symm.trans h) hr',
        decResult_congr a (operandsOf c) (operandsOf c') hlen fun hmax i hi hin => ?_]
      rw [operandsOf_sym c i hi, operandsOf_sym c' i hi, hsym hmax i hin]
    · rw [transact_lsym a h hr, transact_lsym a (hop.symm.trans h) hr',
        lsymResult_congr a (operandsOf c) (operandsOf c') hwide hval]
    · rw [transact_lval a h hr, transact_lval a (hop.symm.trans h) hr',
        lvalResult_congr a (operandsOf c) (operandsOf c') hsym]
  · rw [transact_illegal a (.inl ((reservedBitsSet_iff c).mpr hset)), rspStatus_packResponse]
    rfl

/-- Settles O4: the decoder is run on the six words. -/
theorem wordsWrittenFromTheFieldTableDecode : Obligations.WordsWrittenFromTheFieldTableDecode := by
  unfold Obligations.WordsWrittenFromTheFieldTableDecode
  decide

/-- Settles O5: the operands are `operandsOf`, and the decoder has one equation for each `OP`. -/
theorem operandsAndOperationComeFromTheirBits : Obligations.OperandsAndOperationComeFromTheirBits := by
  refine fun cmd => ⟨fun h0 h1 h2 => ?_, decode_reservedOp4, decode_reservedOp5, decode_reservedOp6,
    decode_reservedOp7⟩
  have hr := (reservedBitsSet_eq_false_iff cmd).mpr ⟨h0, h1, h2⟩
  exact ⟨operandsOf cmd, rfl, rfl, rfl, operandsOf_sym cmd, fun h => decode_enc h hr,
    fun h => decode_dec h hr, fun h => decode_lsym h hr, fun h => decode_lval h hr⟩

end Sys2Proof.Machine

/-! SUPPORT. The result of each operation, case by case (spec/40_alphabet_lut.md R104, R105,
spec/41_encoder.md R122, spec/42_decoder.md R142). -/

namespace Sys2Proof.Machine

section Results
variable (a : Alphabet) {o : Operands}

theorem encResult_of_badLength (h : o.len.toNat < 1 ∨ 11 < o.len.toNat) :
    encResult a o = .error .invalidLength := by
  rw [encResult, (lengthOk_eq_false_iff _).mpr h]
  rfl

theorem encResult_of_outOfRange (h1 : 1 ≤ o.len.toNat) (h2 : o.len.toNat ≤ 11)
    (h : o.wide = true ∨ (o.len.toNat ≤ 10 ∧ 2 ^ (6 * o.len.toNat) ≤ o.val.toNat)) :
    encResult a o = .error .valueOutOfRange := by
  rw [encResult, (lengthOk_iff _).mpr ⟨h1, h2⟩]
  obtain hw | hbits := h
  · rw [hw]; rfl
  · rw [tooManyBits, decide_eq_true hbits]
    exact ite_self _

theorem encResult_of_inRange (h1 : 1 ≤ o.len.toNat) (h2 : o.len.toNat ≤ 11) (hw : o.wide = false)
    (h : o.len.toNat ≤ 10 → o.val.toNat < 2 ^ (6 * o.len.toNat)) :
    encResult a o =
      .ok { rlen := o.len, rval := 0#64, rsym := lanesOf (encodedLane a o.val o.len.toNat) } := by
  rw [encResult, (lengthOk_iff _).mpr ⟨h1, h2⟩, hw, tooManyBits,
    decide_eq_false fun ⟨hle, hge⟩ => Nat.not_lt.mpr hge (h hle)]
  rfl

theorem decResult_of_badLength (h : o.len.toNat < 1 ∨ 11 < o.len.toNat) :
    decResult a o = .error .invalidLength := by
  rw [decResult, (lengthOk_eq_false_iff _).mpr h]
  rfl

theorem decResult_of_nonMember (h1 : 1 ≤ o.len.toNat) (h2 : o.len.toNat ≤ 11)
    (h : ∃ i, ∃ hi : i < 11, i < o.len.toNat ∧ inv a o.sym[i] = none) :
    decResult a o = .error .invalidCharacter := by
  obtain ⟨i, hi, hin, hnone⟩ := h
  have hlookup : lookupAll a (usedLanes o.sym o.len.toNat) = none := by
    refine (lookupAll_eq_none_iff a _).mpr ⟨o.sym[i], ?_, hnone⟩
    rw [← getElem_usedLanes o.sym _ i h2 hin]
    exact List.getElem_mem _
  rw [decResult, (lengthOk_iff _).mpr ⟨h1, h2⟩, hlookup]
  rfl

/-- Every lane in use holds the symbol of a digit: RANGE or the base-64 value (R140, R142). -/
theorem decResult_of_digits (h1 : 1 ≤ o.len.toNat) (h2 : o.len.toNat ≤ 11) (d : Nat → Digit)
    (hd : ∀ i (hi : i < 11), i < o.len.toNat → inv a o.sym[i] = some (d i)) :
    decResult a o =
      if o.len.toNat = 11 ∧ 2 ^ 64 ≤ value11 d then .error .valueOutOfRange
      else .ok {
        rlen := o.len
        rval := BitVec.ofNat 64
          (∑ k ∈ Finset.range o.len.toNat, (d k).toNat * 64 ^ (o.len.toNat - 1 - k))
        rsym := noSymbols } := by
  have hraw : (composeRaw ((List.range o.len.toNat).map d)).toNat =
      ∑ k ∈ Finset.range o.len.toNat, (d k).toNat * 64 ^ (o.len.toNat - 1 - k) := by
    rw [toNat_composeRaw _ (by simpa using h2), compose_map_range]
  have hover : overflows o.len.toNat (composeRaw ((List.range o.len.toNat).map d)) = true ↔
      o.len.toNat = 11 ∧ 2 ^ 64 ≤ value11 d := by
    rw [overflows_iff, hraw]
    exact and_congr_right fun h => by rw [h, value11]
  have hlow : (composeRaw ((List.range o.len.toNat).map d)).extractLsb' 0 64 = BitVec.ofNat 64
      (∑ k ∈ Finset.range o.len.toNat, (d k).toNat * 64 ^ (o.len.toNat - 1 - k)) := by
    rw [← hraw]
    exact BitVec.eq_of_toNat_eq (by simp)
  rw [decResult, (lengthOk_iff _).mpr ⟨h1, h2⟩, lookupAll_usedLanes d o.sym _ h2 hd]
  simp only [hover, hlow]
  rfl

theorem lsymResult_of_outOfRange (h : o.wide = true ∨ 64 ≤ o.val.toNat) :
    lsymResult a o = .error .valueOutOfRange := by
  obtain hw | hval := h
  · rw [lsymResult, if_pos hw]
  · rw [lsymResult, if_pos hval, ite_self]

theorem lsymResult_of_digit (v : Digit) (hw : o.wide = false) (h : o.val.toNat = v.toNat) :
    lsymResult a o =
      .ok { rlen := 1#8, rval := 0#64, rsym := lanesOf fun i => if i = 0 then fwd a v else 0#8 } := by
  have hlow : o.val.extractLsb' 0 6 = v := by
    apply BitVec.eq_of_toNat_eq
    rw [BitVec.extractLsb'_toNat, Nat.shiftRight_zero, h, Nat.mod_eq_of_lt v.isLt]
  have hlt : ¬ 64 ≤ o.val.toNat := h ▸ Nat.not_le.mpr v.isLt
  rw [lsymResult, hw, if_neg Bool.false_ne_true, if_neg hlt, hlow]

theorem lvalResult_of_nonMember (h : inv a o.sym[0] = none) :
    lvalResult a o = .error .invalidCharacter := by
  rw [lvalResult, h]

theorem lvalResult_of_digit (v : Digit) (h : inv a o.sym[0] = some v) :
    lvalResult a o = .ok { rlen := 1#8, rval := v.setWidth 64, rsym := noSymbols } := by
  rw [lvalResult, h]

end Results

/-! ### Base-64 digits -/

/-- R141: eleven digits reach 2^64 exactly when the first is 16 or more. -/
theorem two_pow_64_le_value11_iff (d : Nat → Digit) : 2 ^ 64 ≤ value11 d ↔ 16 ≤ (d 0).toNat := by
  have hrest : compose ((List.range 10).map fun k => d (k + 1)) < 64 ^ 10 := by
    simpa using compose_lt ((List.range 10).map fun k => d (k + 1))
  have hsum : value11 d = (d 0).toNat * 64 ^ 10 + compose ((List.range 10).map fun k => d (k + 1)) := by
    rw [value11, ← compose_map_range d 11, List.range_succ_eq_map, List.map_cons, List.map_map,
      compose_cons]
    simp [Function.comp_def]
  omega

/-- The n low base-64 digits of x, most significant first, sum to x when x has no more (R124). -/
theorem sum_base64_digits {x n : Nat} (h : x < 64 ^ n) :
    ∑ k ∈ Finset.range n, x / 64 ^ (n - 1 - k) % 64 * 64 ^ (n - 1 - k) = x := by
  have hlow (m : Nat) : ∑ j ∈ Finset.range m, x / 64 ^ j % 64 * 64 ^ j = x % 64 ^ m := by
    induction m with
    | zero => simp [Nat.mod_one]
    | succ m ih => rw [Finset.sum_range_succ, ih, Nat.mod_pow_succ, mul_comm (64 ^ m)]
  rw [Finset.sum_range_reflect (fun j => x / 64 ^ j % 64 * 64 ^ j), hlow, Nat.mod_eq_of_lt h]

end Sys2Proof.Machine

/-! SUPPORT. The host's side (spec/30_encoding.md R62 to R64, R74, R75): what it presents for an integer, a
length, a character and a string, and how it reads a response back. -/

namespace Sys2Proof.Machine

/-! ### Integers and lengths (R62, R64) -/

theorem toNat_presentLen (n : Int) : (presentLen n).toNat = min n.toNat 255 := by
  unfold presentLen
  split_ifs with hneg hbig
  · simp only [BitVec.toNat_ofNat]; omega
  · simp only [BitVec.toNat_ofNat]; omega
  · rw [BitVec.toNat_ofInt]; omega

theorem toNat_presentLen_natCast {n : Nat} (h : n ≤ 11) : (presentLen n).toNat = n := by
  rw [toNat_presentLen]; omega

/-- The block's length check answers what the host's length deserves, however it was saturated (R64). -/
theorem presentLen_outside_iff (n : Int) :
    (presentLen n).toNat < 1 ∨ 11 < (presentLen n).toNat ↔ n < 1 ∨ 11 < n := by
  rw [toNat_presentLen]; omega

theorem presentWide_eq_true_iff (x : Int) : presentWide x = true ↔ x < 0 ∨ 2 ^ 64 ≤ x :=
  decide_eq_true_iff

theorem presentWide_natCast {x : Nat} (h : x < 2 ^ 64) : presentWide x = false :=
  decide_eq_false (by omega)

theorem toNat_presentVal_natCast {x : Nat} (h : x < 2 ^ 64) : (presentVal x).toNat = x := by
  rw [presentVal, if_neg (by omega), BitVec.toNat_ofInt]; omega

/-- An integer is presented with `WIDE = 1`, or it is the natural number that `VAL` holds (R62). -/
theorem present_cases (x : Int) : presentWide x = true ∨
    ∃ v : Nat, x = v ∧ v < 2 ^ 64 ∧ presentWide x = false ∧ (presentVal x).toNat = v := by
  by_cases hx : x < 0 ∨ 2 ^ 64 ≤ x
  · exact .inl ((presentWide_eq_true_iff x).mpr hx)
  · obtain ⟨v, rfl⟩ := Int.eq_ofNat_of_zero_le (a := x) (by omega)
    have hv : v < 2 ^ 64 := by omega
    exact .inr ⟨v, rfl, hv, presentWide_natCast hv, toNat_presentVal_natCast hv⟩

/-! ### Characters (R63) -/

section Characters
variable {a : Alphabet}

/-- R100(c): every symbol is an ASCII code. -/
theorem toNat_fwd_le (ha : Alphabet.PrintableAscii a) (v : Digit) : (fwd a v).toNat ≤ 0x7E :=
  (ha ⟨v.toNat, v.isLt⟩).2

/-- The lane code of a character is a given symbol exactly when the character has that code. -/
theorem fwd_eq_presentChar_iff (ha : Alphabet.PrintableAscii a) (v : Digit) (c : Char) :
    fwd a v = presentChar c ↔ (fwd a v).toNat = c.toNat := by
  have hle := toNat_fwd_le ha v
  rw [← BitVec.toNat_inj, presentChar]
  split_ifs with hc
  · rw [BitVec.toNat_ofNat, Nat.mod_eq_of_lt (by omega)]
  · rw [BitVec.toNat_ofNat]; omega

theorem inv_presentChar_eq_some (ha : Alphabet.Admissible a) {v : Digit} {c : Char}
    (h : (fwd a v).toNat = c.toNat) : inv a (presentChar c) = some v :=
  inv_of_fwd ha.1 ((fwd_eq_presentChar_iff ha.2 v c).mpr h)

theorem inv_presentChar_eq_none (ha : Alphabet.Admissible a) {c : Char}
    (h : ∀ v : Digit, (fwd a v).toNat ≠ c.toNat) : inv a (presentChar c) = none :=
  (inv_eq_none_iff a _).mpr fun v => mt (fwd_eq_presentChar_iff ha.2 v c).mp (h v)

/-- The ASCII character with a symbol's code has that code. -/
theorem toNat_charOfNat_fwd (ha : Alphabet.PrintableAscii a) (v : Digit) :
    (Char.ofNat (fwd a v).toNat).toNat = (fwd a v).toNat := by
  have hle := toNat_fwd_le ha v
  rw [Char.toNat_ofNat, if_pos (.inl (by omega))]

theorem getElem_presentString (s : List Char) (i : Nat) (hi : i < 11) (his : i < s.length) :
    (presentString s)[i] = presentChar s[i] := by
  rw [presentString, getElem_lanesOf _ i hi]
  simp [his]

end Characters

/-! ### Reading a response (R75) -/

/-- How each of the source's functions reads a response: its own field when STATUS = OK, else the STATUS. -/
def readResponse {α : Type} (field : Word256 → α) (rsp : Word256) : Except (BitVec 3) α :=
  if rspStatus rsp = statusOk then .ok (field rsp) else .error (rspStatus rsp)

section Read
variable {α : Type} (field : Word256 → α) (op : OpCode)

theorem readResponse_success (p : Payload) :
    readResponse field (packResponse (answer op (.ok p))) =
      .ok (field (packResponse (successResponse op p))) :=
  if_pos (rspStatus_packResponse _)

theorem readResponse_error (k : ErrorKind) :
    readResponse field (packResponse (answer op (.error k))) = .error (errorStatus k) := by
  have hst : rspStatus (packResponse (answer op (.error k))) = errorStatus k := rspStatus_packResponse _
  rw [readResponse, hst, statusOk, if_neg (errorStatus_range k).1]

end Read

/-- The string of a response whose lanes are given by position. -/
theorem rspString_packResponse (op : OpCode) (len : BitVec 8) (val : Value) (f : Nat → Symbol)
    (h : len.toNat ≤ 11) :
    rspString (packResponse (successResponse op { rlen := len, rval := val, rsym := lanesOf f })) =
      (List.range len.toNat).map f := by
  rw [rspString, rspRlen_packResponse]
  refine List.map_congr_left fun i hi => ?_
  have hi11 : i < 11 := (List.mem_range.mp hi).trans_le h
  exact (wordLane_packResponse _ i hi11).trans (getElem_lanesOf f i hi11)

/-- The operands of `ENC <n>, <x>` (R74). -/
def encOperands (n x : Int) : Operands :=
  { len := presentLen n, wide := presentWide x, val := presentVal x, sym := noSymbols }

/-- The operands of `DEC "<string>"` (R74). -/
def decOperands (s : List Char) : Operands :=
  { len := presentLen s.length, wide := false, val := 0#64, sym := presentString s }

/-- The operands of `LSYM <x>` (R74). -/
def lsymOperands (x : Int) : Operands :=
  { len := 0#8, wide := presentWide x, val := presentVal x, sym := noSymbols }

/-- The operands of `LVAL '<c>'` (R74). -/
def lvalOperands (c : Char) : Operands :=
  { len := 0#8, wide := false, val := 0#64, sym := presentString [c] }

section Source
variable (a : Alphabet)

theorem sourceEncode_eq (value length : Int) : sourceEncode a value length =
    readResponse rspString (packResponse (answer 0#3 (encResult a (encOperands length value)))) :=
  congrArg (readResponse rspString) (transact_encode a (i := .enc (encOperands length value)) rfl)

theorem sourceDecode_eq (s : List Char) : sourceDecode a s =
    readResponse rspRval (packResponse (answer 1#3 (decResult a (decOperands s)))) :=
  congrArg (readResponse rspRval) (transact_encode a (i := .dec (decOperands s)) rfl)

theorem sourceSymbol_eq (value : Int) : sourceSymbol a value =
    readResponse (wordLane · 0) (packResponse (answer 2#3 (lsymResult a (lsymOperands value)))) :=
  congrArg (readResponse (wordLane · 0)) (transact_encode a (i := .lsym (lsymOperands value)) rfl)

theorem sourceValue_eq (c : Char) : sourceValue a c =
    readResponse (fun rsp => (rspRval rsp).extractLsb' 0 6)
      (packResponse (answer 3#3 (lvalResult a (lvalOperands c)))) :=
  congrArg (readResponse fun rsp => (rspRval rsp).extractLsb' 0 6)
    (transact_encode a (i := .lval (lvalOperands c)) rfl)

end Source

/-! ### What each function answers -/

section Encode
variable (a : Alphabet) {value length : Int}

theorem sourceEncode_of_badLength (h : length < 1 ∨ 11 < length) :
    sourceEncode a value length = .error 1#3 := by
  rw [sourceEncode_eq, encResult_of_badLength a ((presentLen_outside_iff length).mpr h)]
  exact readResponse_error _ _ _

theorem sourceEncode_of_outOfRange {n : Nat} (h1 : 1 ≤ n) (h2 : n ≤ 11)
    (h : value < 0 ∨ 2 ^ 64 ≤ value ∨ 2 ^ (6 * n) ≤ value) : sourceEncode a value n = .error 3#3 := by
  have hlen : (encOperands n value).len.toNat = n := toNat_presentLen_natCast h2
  have hbad : (encOperands n value).wide = true ∨ ((encOperands n value).len.toNat ≤ 10 ∧
      2 ^ (6 * (encOperands n value).len.toNat) ≤ (encOperands n value).val.toNat) := by
    rw [hlen]
    refine (present_cases value).imp_right ?_
    rintro ⟨v, rfl, hv, -, hval⟩
    change n ≤ 10 ∧ 2 ^ (6 * n) ≤ (presentVal v).toNat
    rw [hval]
    have hbits : 2 ^ (6 * n) ≤ v := by
      obtain hneg | hwide | hbits := h
      · omega
      · omega
      · exact_mod_cast hbits
    refine ⟨?_, hbits⟩
    by_contra hn
    obtain rfl : n = 11 := by omega
    omega
  rw [sourceEncode_eq, encResult_of_outOfRange a (h1.trans_eq hlen.symm) (hlen.trans_le h2) hbad]
  exact readResponse_error _ _ _

theorem sourceEncode_of_inRange {n x : Nat} (h1 : 1 ≤ n) (h2 : n ≤ 11) (hx : x < 2 ^ 64)
    (hn : x < 2 ^ (6 * n)) : sourceEncode a x n =
      .ok ((List.range n).map fun i => fwd a (BitVec.ofNat 6 (x / 64 ^ (n - 1 - i)))) := by
  have hlen : (encOperands n x).len.toNat = n := toNat_presentLen_natCast h2
  have hval : (encOperands n x).val.toNat = x := toNat_presentVal_natCast hx
  rw [sourceEncode_eq, encResult_of_inRange a (h1.trans_eq hlen.symm) (hlen.trans_le h2)
    (presentWide_natCast hx) (fun _ => by rwa [hlen, hval]), readResponse_success,
    rspString_packResponse _ _ _ _ (hlen.trans_le h2), hlen]
  refine congrArg _ (List.map_congr_left fun i hi => ?_)
  rw [encodedLane, if_pos (List.mem_range.mp hi), extract_eq_ofNat, hval]

end Encode

section Decode
variable {a : Alphabet} (ha : Alphabet.Admissible a) {s : List Char}

theorem sourceDecode_of_badLength (a : Alphabet) (h : s.length < 1 ∨ 11 < s.length) :
    sourceDecode a s = .error 1#3 := by
  have hlen := (presentLen_outside_iff s.length).mpr (by omega)
  rw [sourceDecode_eq, decResult_of_badLength a (o := decOperands s) hlen]
  exact readResponse_error _ _ _

include ha

theorem sourceDecode_of_nonMember (h1 : 1 ≤ s.length) (h2 : s.length ≤ 11)
    (h : ∃ c ∈ s, ∀ v : Digit, (fwd a v).toNat ≠ c.toNat) : sourceDecode a s = .error 2#3 := by
  have hlen : (decOperands s).len.toNat = s.length := toNat_presentLen_natCast h2
  obtain ⟨c, hc, hnone⟩ := h
  obtain ⟨i, hi, rfl⟩ := List.getElem_of_mem hc
  have hlane : inv a (presentString s)[i] = none := by
    rw [getElem_presentString s i (by omega) hi]
    exact inv_presentChar_eq_none ha hnone
  rw [sourceDecode_eq, decResult_of_nonMember a (h1.trans_eq hlen.symm) (hlen.trans_le h2)
    ⟨i, hi.trans_le h2, hi.trans_eq hlen.symm, hlane⟩]
  exact readResponse_error _ _ _

/-- The characters are the symbols of digits: RANGE or the base-64 value (R140, R142). -/
theorem sourceDecode_of_digits (h1 : 1 ≤ s.length) (h2 : s.length ≤ 11) {d : Nat → Digit}
    (hd : ∀ i (hi : i < s.length), (fwd a (d i)).toNat = s[i].toNat) :
    sourceDecode a s =
      if s.length = 11 ∧ 16 ≤ (d 0).toNat then .error 3#3
      else .ok (BitVec.ofNat 64
        (∑ k ∈ Finset.range s.length, (d k).toNat * 64 ^ (s.length - 1 - k))) := by
  have hlen : (decOperands s).len.toNat = s.length := toNat_presentLen_natCast h2
  have hlane (i : Nat) (hi : i < 11) (hin : i < (decOperands s).len.toNat) :
      inv a (decOperands s).sym[i] = some (d i) := by
    rw [hlen] at hin
    rw [decOperands, getElem_presentString s i hi hin]
    exact inv_presentChar_eq_some ha (hd i hin)
  rw [sourceDecode_eq, decResult_of_digits a (h1.trans_eq hlen.symm) (hlen.trans_le h2) d hlane]
  simp only [hlen, two_pow_64_le_value11_iff]
  split_ifs
  · exact readResponse_error _ _ _
  · rw [readResponse_success, rspRval_packResponse]
    rfl

end Decode

section Lookups
variable {a : Alphabet}

theorem sourceSymbol_of_outOfRange (a : Alphabet) {x : Int} (h : x < 0 ∨ 64 ≤ x) :
    sourceSymbol a x = .error 3#3 := by
  have hbad : (lsymOperands x).wide = true ∨ 64 ≤ (lsymOperands x).val.toNat := by
    refine (present_cases x).imp_right ?_
    rintro ⟨v, rfl, -, -, hval⟩
    change 64 ≤ (presentVal v).toNat
    omega
  rw [sourceSymbol_eq, lsymResult_of_outOfRange a hbad]
  exact readResponse_error _ _ _

theorem sourceSymbol_of_digit (a : Alphabet) (v : Digit) : sourceSymbol a v.toNat = .ok (fwd a v) := by
  have hv : v.toNat < 2 ^ 64 := v.isLt.trans (by decide)
  rw [sourceSymbol_eq, lsymResult_of_digit a (o := lsymOperands v.toNat) v (presentWide_natCast hv)
    (toNat_presentVal_natCast hv), readResponse_success, wordLane_packResponse _ 0 (by decide)]
  rfl

theorem sourceValue_of_nonMember (ha : Alphabet.Admissible a) {c : Char}
    (h : ∀ v : Digit, (fwd a v).toNat ≠ c.toNat) : sourceValue a c = .error 2#3 := by
  rw [sourceValue_eq, lvalResult_of_nonMember a (o := lvalOperands c) (inv_presentChar_eq_none ha h)]
  exact readResponse_error _ _ _

theorem sourceValue_of_digit (ha : Alphabet.Admissible a) {c : Char} {v : Digit}
    (h : (fwd a v).toNat = c.toNat) : sourceValue a c = .ok v := by
  rw [sourceValue_eq, lvalResult_of_digit a (o := lvalOperands c) v (inv_presentChar_eq_some ha h),
    readResponse_success, rspRval_packResponse]
  refine congrArg _ (BitVec.eq_of_toNat_eq ?_)
  simpa [successResponse] using v.isLt

end Lookups

/-! ### Where each function succeeds -/

section Domain
variable {a : Alphabet}

theorem genericError_isSome_iff {α : Type} (r : Except (BitVec 3) α) :
    (genericError r).isSome = true ↔ ∃ v, r = .ok v := by
  cases r <;> simp [genericError]

theorem sourceEncode_succeeds_iff (a : Alphabet) (value length : Int) :
    (∃ s, sourceEncode a value length = .ok s) ↔
      1 ≤ length ∧ length ≤ 11 ∧ 0 ≤ value ∧ value < 2 ^ 64 ∧ value < 2 ^ (6 * length.toNat) := by
  by_cases hl : length < 1 ∨ 11 < length
  · rw [sourceEncode_of_badLength a hl]
    exact iff_of_false (by simp) (by omega)
  obtain ⟨n, rfl⟩ := Int.eq_ofNat_of_zero_le (a := length) (by omega)
  rw [Int.toNat_natCast]
  by_cases hv : value < 0 ∨ 2 ^ 64 ≤ value ∨ 2 ^ (6 * n) ≤ value
  · rw [sourceEncode_of_outOfRange a (by omega) (by omega) hv]
    exact iff_of_false (by simp) (by omega)
  obtain ⟨x, rfl⟩ := Int.eq_ofNat_of_zero_le (a := value) (by omega)
  have hn : x < 2 ^ (6 * n) := by
    have : ¬ (2 : Int) ^ (6 * n) ≤ x := fun h => hv (.inr (.inr h))
    exact_mod_cast not_le.mp this
  refine iff_of_true ⟨_, sourceEncode_of_inRange a (by omega) (by omega) (by omega) hn⟩ ?_
  exact ⟨by omega, by omega, by omega, by omega, by exact_mod_cast hn⟩

theorem sourceDecode_succeeds_iff (ha : Alphabet.Admissible a) (s : List Char) :
    (∃ v, sourceDecode a s = .ok v) ↔
      1 ≤ s.length ∧ s.length ≤ 11 ∧ ∃ d : Nat → Digit,
        (∀ i (hi : i < s.length), (fwd a (d i)).toNat = s[i].toNat) ∧
        (s.length = 11 → (d 0).toNat < 16) := by
  constructor
  · rintro ⟨v, hv⟩
    by_cases hl : s.length < 1 ∨ 11 < s.length
    · rw [sourceDecode_of_badLength a hl] at hv; cases hv
    by_cases hmem : ∃ c ∈ s, ∀ v : Digit, (fwd a v).toNat ≠ c.toNat
    · rw [sourceDecode_of_nonMember ha (by omega) (by omega) hmem] at hv; cases hv
    push Not at hmem
    choose! digit hdigit using hmem
    have hd (i : Nat) (hi : i < s.length) : (fwd a (digit (s.getD i 'A'))).toNat = s[i].toNat := by
      rw [List.getD_eq_getElem _ _ hi]
      exact hdigit _ (List.getElem_mem hi)
    rw [sourceDecode_of_digits ha (by omega) (by omega) hd] at hv
    split_ifs at hv with hover
    exact ⟨by omega, by omega, _, hd, fun h => by omega⟩
  · rintro ⟨h1, h2, d, hd, hfirst⟩
    rw [sourceDecode_of_digits ha h1 h2 hd, if_neg (by omega)]
    exact ⟨_, rfl⟩

theorem sourceSymbol_succeeds_iff (a : Alphabet) (x : Int) :
    (∃ c, sourceSymbol a x = .ok c) ↔ 0 ≤ x ∧ x < 64 := by
  by_cases hx : x < 0 ∨ 64 ≤ x
  · rw [sourceSymbol_of_outOfRange a hx]
    exact iff_of_false (by simp) (by omega)
  · have hv : x = (BitVec.ofNat 6 x.toNat).toNat := by rw [BitVec.toNat_ofNat]; omega
    rw [hv, sourceSymbol_of_digit a (BitVec.ofNat 6 x.toNat), ← hv]
    exact iff_of_true ⟨_, rfl⟩ (by omega)

theorem sourceValue_succeeds_iff (ha : Alphabet.Admissible a) (c : Char) :
    (∃ v, sourceValue a c = .ok v) ↔ ∃ v : Digit, (fwd a v).toNat = c.toNat := by
  by_cases hc : ∃ v : Digit, (fwd a v).toNat = c.toNat
  · obtain ⟨v, hv⟩ := hc
    exact iff_of_true ⟨v, sourceValue_of_digit ha hv⟩ ⟨v, hv⟩
  · rw [sourceValue_of_nonMember ha (not_exists.mp hc)]
    exact iff_of_false (by simp) hc

end Domain

end Sys2Proof.Machine

/-! The statements about the source's functions (spec/30_encoding.md R75): what each answers to any integers
and any characters, that decode undoes encode, and the domains on which they succeed. -/

namespace Sys2Proof.Machine

/-- Settles O43: the saturated length and the `WIDE` bit lose no error, and a value in range is `VAL`. -/
theorem sourceEncodeOfAnyIntegers : Obligations.SourceEncodeOfAnyIntegers := by
  refine fun a value length => ⟨sourceEncode_of_badLength a, ?_⟩
  rintro n h1 h2 rfl
  refine ⟨sourceEncode_of_outOfRange a h1 h2, ?_⟩
  rintro x rfl hx hn
  exact sourceEncode_of_inRange a h1 h2 hx hn

/-- Settles O44: a lane code is a symbol exactly when its character is, so the lookups find the digits, and
eleven of them overflow exactly when the first is 16 or more. -/
theorem sourceDecodeOfAnyString : Obligations.SourceDecodeOfAnyString := by
  refine fun a s ha => ⟨sourceDecode_of_badLength a, sourceDecode_of_nonMember ha, fun h1 h2 d hd => ?_⟩
  rw [sourceDecode_of_digits ha h1 h2 hd]
  exact ⟨fun h => if_pos h, fun h => if_neg h⟩

/-- Settles O45: the digits of the value are those of the characters; they sum to it, and the first is below
16 since the value is below 2^64. -/
theorem sourceRoundTripReturnsTheValue : Obligations.SourceRoundTripReturnsTheValue := by
  intro a x n ha h1 h2 hx hn
  refine ⟨_, sourceEncode_of_inRange a h1 h2 hx hn, by simp, ?_⟩
  rw [List.map_map]
  have hfit : ¬ (n = 11 ∧ 16 ≤ (BitVec.ofNat 6 (x / 64 ^ (n - 1 - 0))).toNat) := by
    rintro ⟨rfl, h16⟩
    rw [BitVec.toNat_ofNat] at h16
    omega
  rw [sourceDecode_of_digits ha (by simpa using h1) (by simpa using h2)
    (d := fun i => BitVec.ofNat 6 (x / 64 ^ (n - 1 - i)))
    (fun i hi => by simp [toNat_charOfNat_fwd ha.2])]
  simp only [List.length_map, List.length_range]
  rw [if_neg hfit]
  simp only [BitVec.toNat_ofNat]
  rw [sum_base64_digits (by rwa [pow_mul] at hn)]

/-- Settles O46: each lookup is the LUT's own, reached through the host's presentation. -/
theorem sourceLookupsArePerfectInverses : Obligations.SourceLookupsArePerfectInverses :=
  fun a ha => ⟨fun _ => sourceSymbol_of_outOfRange a, sourceSymbol_of_digit a,
    fun _ => sourceValue_of_nonMember ha, fun _ _ => sourceValue_of_digit ha⟩

/-- Settles O47: the generic error stands for every STATUS but OK. -/
theorem genericErrorIsExactlyOutsideTheDomain : Obligations.GenericErrorIsExactlyOutsideTheDomain := by
  intro a ha
  simp only [genericError_isSome_iff]
  exact ⟨sourceEncode_succeeds_iff a, sourceDecode_succeeds_iff ha, sourceSymbol_succeeds_iff a,
    sourceValue_succeeds_iff ha⟩

end Sys2Proof.Machine

/-! SUPPORT. The LUT through its commands (spec/40_alphabet_lut.md R102, R104, R105): what LSYM and LVAL do to
the state, what the entries of `INV_ROM` are, how many codes are members, and the one-character codecs. -/

namespace Sys2Proof.Machine

/-! ### The commands -/

section Commands
variable {o : Operands} {s : State}

/-- The error response of RANGE, as one number with `ROP = 2`. -/
theorem exec_lsym_of_outOfRange (h : o.wide = true ∨ 64 ≤ o.val.toNat) :
    exec (.lsym o) s = .next (respond 0x203#256 s) := by
  rw [exec_eq, instrResponse, lsymResult_of_outOfRange _ h, answer, packResponse_error]
  rfl

theorem exec_lsym_of_digit {v : Digit} (hw : o.wide = false) (h : o.val.toNat = v.toNat) :
    exec (.lsym o) s = .next (respond (packResponse (successResponse 2#3 {
      rlen := 1#8, rval := 0#64,
      rsym := lanesOf fun i => if i = 0 then fwd s.alphabet v else 0#8 })) s) := by
  rw [exec_eq, instrResponse, lsymResult_of_digit _ v hw h, answer]

/-- The error response of ICHAR, as one number with `ROP = 3`. -/
theorem exec_lval_of_nonMember (h : ¬ isMember s.alphabet o.sym[0]) :
    exec (.lval o) s = .next (respond 0x302#256 s) := by
  have hnone : inv s.alphabet o.sym[0] = none := (inv_eq_none_iff _ _).mpr (not_exists.mp h)
  rw [exec_eq, instrResponse, lvalResult_of_nonMember _ hnone, answer, packResponse_error]
  rfl

theorem exec_lval_of_member (ha : Alphabet.Distinct s.alphabet) {v : Digit}
    (h : fwd s.alphabet v = o.sym[0]) :
    exec (.lval o) s = .next (respond (packResponse (successResponse 3#3 {
      rlen := 1#8, rval := BitVec.ofNat 64 v.toNat, rsym := noSymbols })) s) := by
  rw [exec_eq, instrResponse, lvalResult_of_digit _ v (inv_of_fwd ha h), answer, BitVec.ofNat_toNat]

end Commands

/-! ### `INV_ROM` -/

theorem getElem_invRom (a : Alphabet) (c : Symbol) :
    (invRom a)[c.toNat]'c.isLt = invRomEntry a c := by
  rw [invRom, Vector.getElem_ofFn, BitVec.ofNat_toNat, BitVec.setWidth_eq]

theorem invRomEntry_of_fwd {a : Alphabet} (ha : Alphabet.Distinct a) {c : Symbol} {v : Digit}
    (h : fwd a v = c) : invRomEntry a c = 1#1 ++ v := by
  obtain ⟨w, hw, he⟩ | ⟨hn, -⟩ := invRomEntry_cases a c
  · rw [he, fwd_injective ha (hw.trans h.symm)]
  · exact absurd h (hn v)

theorem invRomEntry_of_nonMember {a : Alphabet} {c : Symbol} (h : ∀ v : Digit, fwd a v ≠ c) :
    invRomEntry a c = 0#7 := by
  obtain ⟨v, hv, -⟩ | ⟨-, he⟩ := invRomEntry_cases a c
  · exact absurd hv (h v)
  · exact he

/-! ### How many codes are members -/

theorem inv_isSome_iff (a : Alphabet) (c : Symbol) : (inv a c).isSome = true ↔ isMember a c := by
  rw [← Option.ne_none_iff_isSome, ne_eq, inv_eq_none_iff, isMember, not_forall_not]

/-- The member codes are the codes of the 64 symbols. -/
theorem memberCodes_eq_image (a : Alphabet) :
    (Finset.range 256).filter (fun c => (inv a (BitVec.ofNat 8 c)).isSome) =
      Finset.univ.image fun v : Fin 64 => (fwd a (BitVec.ofFin v)).toNat := by
  ext c
  simp only [Finset.mem_filter, Finset.mem_range, inv_isSome_iff, Finset.mem_image, Finset.mem_univ,
    true_and]
  constructor
  · rintro ⟨hc, ⟨v⟩, hv⟩
    exact ⟨v, by rw [hv, BitVec.toNat_ofNat, Nat.mod_eq_of_lt hc]⟩
  · rintro ⟨v, rfl⟩
    exact ⟨(fwd a _).isLt, BitVec.ofFin v, by rw [BitVec.ofNat_toNat, BitVec.setWidth_eq]⟩

/-- Distinct symbols make 64 member codes (R102). -/
theorem countP_member {a : Alphabet} (ha : Alphabet.Distinct a) :
    (List.range 256).countP (fun c => (inv a (BitVec.ofNat 8 c)).isSome) = 64 := by
  have hinj : Function.Injective fun v : Fin 64 => (fwd a (BitVec.ofFin v)).toNat := fun v w h =>
    congrArg BitVec.toFin (fwd_injective ha (BitVec.eq_of_toNat_eq h))
  calc (List.range 256).countP (fun c => (inv a (BitVec.ofNat 8 c)).isSome)
      = ((Finset.range 256).filter fun c => (inv a (BitVec.ofNat 8 c)).isSome).card := by
        rw [← Nat.count_eq_card_filter_range, Nat.count]
        simp only [Bool.decide_eq_true]
    _ = 64 := by rw [memberCodes_eq_image, Finset.card_image_of_injective _ hinj]; rfl

/-- The codes that are no members are the rest (R102). -/
theorem countP_nonMember {a : Alphabet} (ha : Alphabet.Distinct a) :
    (List.range 256).countP (fun c => (inv a (BitVec.ofNat 8 c)).isNone) = 192 := by
  have hsplit := List.length_eq_countP_add_countP
    (fun c => (inv a (BitVec.ofNat 8 c)).isSome) (l := List.range 256)
  rw [List.length_range, countP_member ha] at hsplit
  simp only [Bool.not_eq_true, Option.isSome_eq_false_iff, Bool.decide_eq_true] at hsplit
  omega

/-! ### Law L-3: the one-character codecs -/

section OneCharacter
variable (a : Alphabet) (o : Operands)

/-- A one-character string is the symbol of its value's one digit (R120). -/
theorem encodedLane_one (val : Value) :
    encodedLane a val 1 = fun i => if i = 0 then fwd a (BitVec.ofNat 6 val.toNat) else 0#8 := by
  funext i
  obtain rfl | hi := Nat.eq_zero_or_pos i
  · simp [encodedLane, extract_eq_ofNat]
  · simp [encodedLane, hi.ne']

/-- `ENC 1, x` and LSYM x give one result. -/
theorem encResult_one : encResult a { o with len := 1#8 } = lsymResult a o := by
  by_cases h : o.wide = true ∨ 64 ≤ o.val.toNat
  · rw [lsymResult_of_outOfRange a h]
    exact encResult_of_outOfRange a (Nat.le_refl 1) (Nat.le_add_left 1 10)
      (h.imp_right fun hval => ⟨Nat.le_add_left 1 9, hval⟩)
  · obtain ⟨hwide, hval⟩ := not_or.mp h
    have hw : o.wide = false := Bool.eq_false_of_not_eq_true hwide
    have hdigit : o.val.toNat = (BitVec.ofNat 6 o.val.toNat).toNat := by
      rw [BitVec.toNat_ofNat]; omega
    rw [lsymResult_of_digit a _ hw hdigit, ← encodedLane_one]
    exact encResult_of_inRange a (Nat.le_refl 1) (Nat.le_add_left 1 10) hw
      fun _ => Nat.not_le.mp hval

/-- `DEC 1, c` and LVAL c give one result. -/
theorem decResult_one : decResult a { o with len := 1#8 } = lvalResult a o := by
  cases h : inv a o.sym[0] with
  | none =>
    rw [lvalResult_of_nonMember a h]
    exact decResult_of_nonMember a (Nat.le_refl 1) (Nat.le_add_left 1 10)
      ⟨0, Nat.zero_lt_succ 10, Nat.one_pos, h⟩
  | some v =>
    have hlane (i : Nat) (hi : i < 11) (hone : i < 1) : inv a o.sym[i] = some v := by
      obtain rfl : i = 0 := Nat.lt_one_iff.mp hone
      exact h
    rw [lvalResult_of_digit a v h, decResult_of_digits a (o := { o with len := 1#8 }) (Nat.le_refl 1)
      (Nat.le_add_left 1 10) (fun _ => v) hlane, if_neg (by simp)]
    simp

end OneCharacter

/-- Outside `rsp[10:8]` a response word is that of the response with `ROP` cleared (R66). -/
theorem packResponse_masked_rop (r : Response) :
    packResponse r &&& ~~~0x700#256 = packResponse { r with rop := 0#3 } := by
  have hmask : ~~~0x700#256 = BitVec.allOnes 40 ++ BitVec.allOnes 88 ++ BitVec.allOnes 64 ++
      BitVec.allOnes 40 ++ BitVec.allOnes 8 ++ BitVec.allOnes 5 ++ 0#3 ++ BitVec.allOnes 5 ++
      BitVec.allOnes 3 := by decide
  rw [hmask, packResponse]
  show (_ : BitVec (40 + 88 + 64 + 40 + 8 + 5 + 3 + 5 + 3)) &&& _ = _
  simp only [Laws.RowMatch.append_and_append, BitVec.and_allOnes, BitVec.and_zero]
  rfl

/-- `OP` enters an answer through `ROP` alone (R67, R203). -/
theorem packResponse_answer_masked_rop (op op' : OpCode) (r : Except ErrorKind Payload) :
    packResponse (answer op r) &&& ~~~0x700#256 = packResponse (answer op' r) &&& ~~~0x700#256 := by
  rw [packResponse_masked_rop, packResponse_masked_rop]
  cases r <;> rfl

end Sys2Proof.Machine

/-! The statements about the LUT (spec/40_alphabet_lut.md): LSYM and LVAL whole, the two tables, and their
laws. -/

namespace Sys2Proof.Machine

/-- Settles O9: LSYM's result is RANGE or the digit's symbol, and `respond` delivers it. -/
theorem lsymAnswersTheSymbolOrRange : Obligations.LsymAnswersTheSymbolOrRange :=
  fun _ _ => ⟨exec_lsym_of_outOfRange, fun _ => exec_lsym_of_digit⟩

/-- Settles O10: LVAL's result is ICHAR or the digit, and `respond` delivers it. -/
theorem lvalAnswersTheValueOrIchar : Obligations.LvalAnswersTheValueOrIchar :=
  fun _ _ => ⟨exec_lval_of_nonMember, fun _ ha => exec_lval_of_member ha.1⟩

/-- Settles O18: each LUT command has its codec's result for one character, and `OP` shows in `ROP` alone. -/
theorem lutCommandsEqualOneCharacterCodecs : Obligations.LutCommandsEqualOneCharacterCodecs := by
  intro o s
  refine ⟨_, _, _, _, exec_eq _ s, exec_eq _ s, exec_eq _ s, exec_eq _ s, ?_, ?_⟩ <;>
    simp only [respond_rspQ, instrResponse, encResult_one, decResult_one]
  · exact packResponse_answer_masked_rop 2#3 0#3 _
  · exact packResponse_answer_masked_rop 3#3 1#3 _

/-- Settles O19: `FWD_ROM` is the alphabet, whose symbols are distinct. -/
theorem forwardLookupIsInjective : Obligations.ForwardLookupIsInjective :=
  fun _ ha => ⟨fun _ => ⟨rfl, rfl⟩, fun _ _ => fwd_injective ha.1⟩

/-- Settles O20: with distinct symbols the position found is the only one, and the members are the codes of
64 symbols. -/
theorem inverseLookupMatchesInvRom : Obligations.InverseLookupMatchesInvRom := by
  intro a ha
  refine ⟨fun c v => ⟨fwd_of_inv, inv_of_fwd ha.1⟩, inv_eq_none_iff a, fun c v h => ?_, fun c h => ?_,
    countP_member ha.1, countP_nonMember ha.1⟩
  · rw [getElem_invRom, invRomEntry_of_fwd ha.1 h]
  · rw [getElem_invRom, invRomEntry_of_nonMember h]

/-- Settles O21: the tables invert each other, and LVAL finds in lane 0 the symbol that LSYM put there. -/
theorem lutDirectionsArePerfectInverses : Obligations.LutDirectionsArePerfectInverses := by
  intro s ha
  refine ⟨fun v => inv_of_fwd ha.1 rfl, fun c => ?_, fun v o o' hw hval => ?_⟩
  · exact (inv_cases s.alphabet c).symm.imp And.right fun ⟨v, hv, hinv⟩ => ⟨v, hinv, hv⟩
  · refine ⟨_, exec_lsym_of_digit hw hval, fun hlane => ?_⟩
    rw [respond_rspQ, wordLane_packResponse _ 0 (by decide)] at hlane
    refine ⟨_, exec_lval_of_member (s := respond _ s) ha.1 hlane.symm, rspStatus_packResponse _, ?_⟩
    rw [respond_rspQ, rspRval_packResponse, successResponse, BitVec.toNat_ofNat]
    exact Nat.mod_eq_of_lt (v.isLt.trans (by decide))

end Sys2Proof.Machine

/-! SUPPORT. The encoder (spec/41_encoder.md R120 to R124): the two extractors, the digits' sum, what ENC does
to the state, and what DEC answers to the symbols of a value's digits (spec/42_decoder.md R142). -/

namespace Sys2Proof.Machine

/-! ### Digits of a value -/

/-- Bit j of either digit i is bit `6 (N − 1 − i) + j` of the value: the left shift by `6 (11 − N)` and the
position `60 − 6i` differ by that much.  The bits shifted out lie above digit 0, so no range is needed. -/
theorem extractFixed_eq_extract (v : Value) {n i : Nat} (hn : n ≤ 11) (hi : i < n) :
    extractFixed v n i = extract v n i := by
  ext j hj
  have hpos : 60 - 6 * i + j = 6 * (11 - n) + (6 * (n - 1 - i) + j) := by omega
  have hfield : 6 * (11 - n) + (6 * (n - 1 - i) + j) < 66 := by omega
  simp [extractFixed, extract, Config.digitW, hpos, hfield]

/-- R121's range for N digits, as `v < 64^N`: at N = 11 every 64-bit value is in range. -/
theorem toNat_lt_of_inRange {v : Value} {n : Nat} (h2 : n ≤ 11)
    (h : n ≤ 10 → v.toNat < 2 ^ (6 * n)) : v.toNat < 64 ^ n := by
  obtain rfl | hle : n = 11 ∨ n ≤ 10 := by omega
  · exact v.isLt.trans (by decide)
  · exact (h hle).trans_eq (pow_mul 2 6 n)

/-- The extracted digits represent the value in base 64 (R124). -/
theorem sum_extract {v : Value} {n : Nat} (h : v.toNat < 64 ^ n) :
    ∑ i ∈ Finset.range n, (extract v n i).toNat * 64 ^ (n - 1 - i) = v.toNat := by
  simp only [toNat_extract]
  exact sum_base64_digits h

theorem encodedLane_eq (a : Alphabet) (val : Value) (n : Nat) :
    encodedLane a val n =
      fun i => if i < n then fwd a (BitVec.ofNat 6 (val.toNat / 64 ^ (n - 1 - i))) else 0#8 := by
  funext i
  rw [encodedLane, extract_eq_ofNat]

theorem encodedLane_of_lt (a : Alphabet) (val : Value) {n i : Nat} (hi : i < n) :
    encodedLane a val n i = fwd a (extract val n i) :=
  if_pos hi

/-! ### The commands -/

section Commands
variable {o : Operands} {s : State}

/-- The error response of ILEN, as one number with `ROP = 0`. -/
theorem exec_enc_of_badLength (h : o.len.toNat < 1 ∨ 11 < o.len.toNat) :
    exec (.enc o) s = .next (respond 0x001#256 s) := by
  rw [exec_eq, instrResponse, encResult_of_badLength _ h, answer, packResponse_error]
  rfl

/-- The error response of RANGE, as one number with `ROP = 0`. -/
theorem exec_enc_of_outOfRange (h1 : 1 ≤ o.len.toNat) (h2 : o.len.toNat ≤ 11)
    (h : o.wide = true ∨ (o.len.toNat ≤ 10 ∧ 2 ^ (6 * o.len.toNat) ≤ o.val.toNat)) :
    exec (.enc o) s = .next (respond 0x003#256 s) := by
  rw [exec_eq, instrResponse, encResult_of_outOfRange _ h1 h2 h, answer, packResponse_error]
  rfl

theorem exec_enc_of_inRange (h1 : 1 ≤ o.len.toNat) (h2 : o.len.toNat ≤ 11) (hw : o.wide = false)
    (h : o.len.toNat ≤ 10 → o.val.toNat < 2 ^ (6 * o.len.toNat)) :
    exec (.enc o) s = .next (respond (packResponse (successResponse 0#3 {
      rlen := o.len, rval := 0#64,
      rsym := lanesOf (encodedLane s.alphabet o.val o.len.toNat) })) s) := by
  rw [exec_eq, instrResponse, encResult_of_inRange _ h1 h2 hw h, answer]

/-- The lanes hold the symbols of the N digits of a value that has no more: the digits sum to it, so nothing
overflows, and DEC answers it (R125, R142). -/
theorem exec_dec_of_encodedLanes {v : Value} (ha : Alphabet.Distinct s.alphabet)
    (h1 : 1 ≤ o.len.toNat) (h2 : o.len.toNat ≤ 11) (hv : v.toNat < 64 ^ o.len.toNat)
    (hsym : ∀ i (hi : i < 11), i < o.len.toNat →
      o.sym[i] = encodedLane s.alphabet v o.len.toNat i) :
    exec (.dec o) s = .next (respond (packResponse (successResponse 1#3 {
      rlen := o.len, rval := v, rsym := noSymbols })) s) := by
  have hinv (i : Nat) (hi : i < 11) (hin : i < o.len.toNat) :
      inv s.alphabet o.sym[i] = some (extract v o.len.toNat i) :=
    inv_of_fwd ha ((hsym i hi hin).trans (encodedLane_of_lt _ v hin)).symm
  have hsum := sum_extract hv
  have hfit : ¬ (o.len.toNat = 11 ∧ 2 ^ 64 ≤ value11 (extract v o.len.toNat)) := by
    rintro ⟨hlen, hover⟩
    rw [hlen] at hsum hover
    exact Nat.not_lt.mpr hover (hsum.trans_lt v.isLt)
  rw [exec_eq, instrResponse, decResult_of_digits _ h1 h2 _ hinv, if_neg hfit, hsum,
    BitVec.ofNat_toNat, BitVec.setWidth_eq, answer]

end Commands

end Sys2Proof.Machine

/-! The statements about the encoder (spec/41_encoder.md): ENC whole, the two extractors, the digits' sum, and
that DEC undoes ENC. -/

namespace Sys2Proof.Machine

/-- Settles O7: ENC's result is ILEN, RANGE or the digits' symbols, and `respond` delivers it. -/
theorem encAnswersTheDigitsOrTheError : Obligations.EncAnswersTheDigitsOrTheError := by
  refine fun o s => ⟨exec_enc_of_badLength, exec_enc_of_outOfRange, fun h1 h2 hw h => ?_⟩
  rw [exec_enc_of_inRange h1 h2 hw h, encodedLane_eq]
  rfl

/-- Settles O22: the extractors agree on every value, in range or not. -/
theorem fixedPositionExtractorAgrees : Obligations.FixedPositionExtractorAgrees :=
  fun v _ _ _ h2 hi _ => extractFixed_eq_extract v h2 hi

/-- Settles O23: a value in range has no more than N base-64 digits, and those sum to it. -/
theorem encodedDigitsSumToTheValue : Obligations.EncodedDigitsSumToTheValue :=
  fun _ _ _ h2 h => sum_extract (toNat_lt_of_inRange h2 h)

/-- Settles O28: ENC leaves the alphabet and puts the symbols of the digits in the lanes, where DEC finds
digits that sum to the value. -/
theorem decOfEncReturnsTheValue : Obligations.DecOfEncReturnsTheValue := by
  intro o o' s ha h1 h2 hw h
  refine ⟨_, exec_enc_of_inRange h1 h2 hw h, rspStatus_packResponse _, rspRlen_packResponse _,
    fun hlen hlanes => ?_⟩
  rw [← hlen] at h1 h2 h hlanes
  have hsym (i : Nat) (hi : i < 11) (hin : i < o'.len.toNat) :
      o'.sym[i] = encodedLane s.alphabet o.val o'.len.toNat i := by
    rw [hlanes i hi hin, respond_rspQ, wordLane_packResponse _ i hi]
    exact getElem_lanesOf _ i hi
  exact ⟨_, exec_dec_of_encodedLanes (s := respond _ s) ha.1 h1 h2 (toNat_lt_of_inRange h2 h) hsym,
    rspStatus_packResponse _, rspRval_packResponse _⟩

end Sys2Proof.Machine

/-! SUPPORT. The decoder (spec/42_decoder.md R140 to R145): the composer and its overflow test, the fixed-position
and the incremental forms, what DEC does to the state, and what ENC answers to the value of a string's digits
(spec/41_encoder.md R122). -/

namespace Sys2Proof.Machine

/-! ### The composer and its overflow test (R140, R141) -/

/-- The u66 is below `2^(6N)` after N digits: it never wraps (R140). -/
theorem toNat_composeRaw_lt {ds : List Digit} (h : ds.length ≤ 11) :
    (composeRaw ds).toNat < 2 ^ (6 * ds.length) := by
  rw [toNat_composeRaw ds h, pow_mul]
  exact compose_lt ds

/-- Ten digits have 60 bits (R141). -/
theorem toNat_composeRaw_lt_two_pow_60 {ds : List Digit} (h : ds.length ≤ 10) :
    (composeRaw ds).toNat < 2 ^ 60 :=
  (toNat_composeRaw_lt (h.trans (Nat.le_succ 10))).trans_le
    (Nat.pow_le_pow_right (by decide) (Nat.mul_le_mul_left 6 h))

theorem overflows_eq_false_of_length_le {ds : List Digit} (h : ds.length ≤ 10) :
    overflows ds.length (composeRaw ds) = false := by
  rw [← Bool.not_eq_true, overflows_iff]
  rintro ⟨h11, -⟩
  omega

/-- Up to 11 digits fail the full-width test exactly when they reach `2^64`: ten or fewer never do (R141). -/
theorem overflows_composeRaw_iff {ds : List Digit} (h : ds.length ≤ 11) :
    overflows ds.length (composeRaw ds) = true ↔ 2 ^ 64 ≤ compose ds := by
  rw [overflows_iff, toNat_composeRaw ds h]
  refine and_iff_right_of_imp fun hover => ?_
  by_contra hne
  have hle : ds.length ≤ 10 := by omega
  have hlt := toNat_composeRaw_lt_two_pow_60 hle
  rw [toNat_composeRaw ds h] at hlt
  omega

theorem overflows_eleven_iff (acc : Raw) : overflows 11 acc = true ↔ acc.extractLsb' 64 2 ≠ 0#2 := by
  simp [overflows]

section Eleven
variable (d : Digit) {ds : List Digit} (h : ds.length = 10)
include h

/-- The first of eleven digits has the weight `64^10 = 2^60`, and the others stay below it. -/
theorem toNat_composeRaw_eleven :
    (composeRaw (d :: ds)).toNat = d.toNat * 64 ^ 10 + compose ds ∧ compose ds < 64 ^ 10 := by
  rw [toNat_composeRaw _ (by rw [List.length_cons, h]), compose_cons, h]
  exact ⟨rfl, h ▸ compose_lt ds⟩

theorem two_pow_64_le_composeRaw_iff : 2 ^ 64 ≤ (composeRaw (d :: ds)).toNat ↔ 16 ≤ d.toNat := by
  obtain ⟨hval, hrest⟩ := toNat_composeRaw_eleven d h
  omega

theorem composeRaw_topBits : (composeRaw (d :: ds)).extractLsb' 64 2 = d.extractLsb' 4 2 := by
  obtain ⟨hval, hrest⟩ := toNat_composeRaw_eleven d h
  apply BitVec.eq_of_toNat_eq
  rw [BitVec.extractLsb'_toNat, BitVec.extractLsb'_toNat, Nat.shiftRight_eq_div_pow,
    Nat.shiftRight_eq_div_pow]
  omega

end Eleven

/-! ### The fixed-position and the incremental composer (R145, R143) -/

/-- Digits placed from position i on: their composition, `6 (11 − i − N)` bits up.  The digits after the first
stay below its lowest bit, so the disjunction adds. -/
theorem toNat_composeFixedWord (ds : List Digit) {i : Nat} (h : i + ds.length ≤ 11) :
    (composeFixedWord ds i).toNat = compose ds * 2 ^ (6 * (11 - (i + ds.length))) := by
  induction ds generalizing i with
  | nil => rw [compose_nil, Nat.zero_mul]; rfl
  | cons d ds ih =>
    rw [List.length_cons] at h
    have hpos : 60 - 6 * i = 6 * ds.length + 6 * (11 - (i + (ds.length + 1))) := by omega
    have hrest := ih (i := i + 1) (by omega)
    rw [show i + 1 + ds.length = i + (ds.length + 1) by omega] at hrest
    have hlow : (composeFixedWord ds (i + 1)).toNat < 2 ^ (60 - 6 * i) := by
      rw [hrest, hpos, pow_add, pow_mul 2 6 ds.length]
      exact Nat.mul_lt_mul_of_pos_right (compose_lt ds) (Nat.two_pow_pos _)
    have hfirst : ((d.setWidth 66 : Raw) <<< (60 - 6 * i)).toNat = d.toNat <<< (60 - 6 * i) := by
      rw [BitVec.toNat_shiftLeft, BitVec.toNat_setWidth_of_le (by decide), Nat.mod_eq_of_lt]
      rw [Nat.shiftLeft_eq]
      calc d.toNat * 2 ^ (60 - 6 * i) < 2 ^ 6 * 2 ^ (60 - 6 * i) :=
            Nat.mul_lt_mul_of_pos_right d.isLt (Nat.two_pow_pos _)
        _ ≤ 2 ^ 66 := by rw [← pow_add]; exact Nat.pow_le_pow_right (by decide) (by omega)
    rw [composeFixedWord, BitVec.toNat_or, hfirst, ← Nat.shiftLeft_add_eq_or_of_lt hlow, hrest,
      Nat.shiftLeft_eq, compose_cons, List.length_cons, hpos, pow_add, pow_mul 2 6 ds.length]
    ring

theorem composeFixed_eq_composeRaw {ds : List Digit} (h : ds.length ≤ 11) :
    composeFixed ds = composeRaw ds := by
  apply BitVec.eq_of_toNat_eq
  rw [composeFixed, BitVec.toNat_ushiftRight, toNat_composeFixedWord ds (by rwa [Nat.zero_add]),
    Nat.zero_add, Nat.shiftRight_eq_div_pow, Nat.mul_div_cancel _ (Nat.two_pow_pos _),
    toNat_composeRaw ds h]

/-- The check before a shift, `acc < 2^58`, is that the shifted total fits 64 bits; totals only grow, so all
checks pass exactly when the last total fits. -/
theorem composeIncremental_eq (ds : List Digit) {acc : Nat} (h : acc < 2 ^ 64) :
    composeIncremental ds acc =
      if 2 ^ 64 ≤ acc * 64 ^ ds.length + compose ds then none
      else some (acc * 64 ^ ds.length + compose ds) := by
  induction ds generalizing acc with
  | nil =>
    rw [List.length_nil, pow_zero, Nat.mul_one, compose_nil, Nat.add_zero, if_neg (Nat.not_le.mpr h)]
    rfl
  | cons d ds ih =>
    have hshift : acc <<< 6 + d.toNat = acc * 64 + d.toNat := by rw [Nat.shiftLeft_eq]
    have htotal : acc * 64 ^ (d :: ds).length + compose (d :: ds) =
        (acc * 64 + d.toNat) * 64 ^ ds.length + compose ds := by
      rw [compose_cons, List.length_cons, pow_succ]; ring
    rw [composeIncremental, hshift, htotal]
    have hd := d.isLt
    by_cases hacc : 2 ^ 58 ≤ acc
    · have hgrow : 2 ^ 64 ≤ (acc * 64 + d.toNat) * 64 ^ ds.length + compose ds :=
        calc 2 ^ 64 ≤ acc * 64 + d.toNat := by omega
          _ ≤ (acc * 64 + d.toNat) * 64 ^ ds.length := Nat.le_mul_of_pos_right _ (by positivity)
          _ ≤ _ := Nat.le_add_right _ _
      rw [if_pos hacc, if_pos hgrow]
    · rw [if_neg hacc, ih (by omega)]

theorem composeIncremental_zero (ds : List Digit) :
    composeIncremental ds 0 = if 2 ^ 64 ≤ compose ds then none else some (compose ds) := by
  rw [composeIncremental_eq ds (by decide), Nat.zero_mul, Nat.zero_add]

/-! ### The digits of a composed value (R144) -/

/-- Base-64 digits are unique: digit i of a composition is the digit composed there. -/
theorem compose_div_pow_mod (ds : List Digit) (i : Nat) (h : i < ds.length) :
    compose ds / 64 ^ (ds.length - 1 - i) % 64 = ds[i].toNat := by
  induction ds generalizing i with
  | nil => exact absurd h (Nat.not_lt_zero i)
  | cons d ds ih =>
    rw [compose_cons, List.length_cons, Nat.add_sub_cancel]
    cases i with
    | zero =>
      rw [Nat.sub_zero, Nat.mul_comm, Nat.mul_add_div (by positivity), Nat.div_eq_of_lt (compose_lt ds)]
      exact Nat.mod_eq_of_lt d.isLt
    | succ i =>
      have hi : i < ds.length := Nat.lt_of_succ_lt_succ h
      have hpos : ds.length - (i + 1) = ds.length - 1 - i := by omega
      have hsplit : ds.length = ds.length - 1 - i + (1 + i) := by omega
      have hmul : d.toNat * 64 ^ ds.length = 64 ^ (ds.length - 1 - i) * (64 * (d.toNat * 64 ^ i)) := by
        conv_lhs => rw [hsplit, pow_add]
        ring
      rw [hpos, hmul, Nat.mul_add_div (by positivity), Nat.mul_add_mod]
      exact ih i hi

/-- ENC extracts the digits whose base-64 sum the value is (R120, R140). -/
theorem extract_of_sum {v : Value} {d : Nat → Digit} {n i : Nat} (hi : i < n)
    (hv : v.toNat = ∑ k ∈ Finset.range n, (d k).toNat * 64 ^ (n - 1 - k)) : extract v n i = d i := by
  have hdigit := compose_div_pow_mod ((List.range n).map d) i (by simpa using hi)
  apply BitVec.eq_of_toNat_eq
  rw [toNat_extract, hv, ← compose_map_range]
  simpa using hdigit

/-- The value of n digits is below `64^n` (R140). -/
theorem sum_digits_lt (d : Nat → Digit) (n : Nat) :
    ∑ k ∈ Finset.range n, (d k).toNat * 64 ^ (n - 1 - k) < 64 ^ n := by
  simpa [compose_map_range] using compose_lt ((List.range n).map d)

/-! ### The commands -/

section Commands
variable {o : Operands} {s : State}

/-- The error response of ILEN, as one number with `ROP = 1`. -/
theorem exec_dec_of_badLength (h : o.len.toNat < 1 ∨ 11 < o.len.toNat) :
    exec (.dec o) s = .next (respond 0x101#256 s) := by
  rw [exec_eq, instrResponse, decResult_of_badLength _ h, answer, packResponse_error]
  rfl

/-- The error response of ICHAR, as one number with `ROP = 1`. -/
theorem exec_dec_of_nonMember (h1 : 1 ≤ o.len.toNat) (h2 : o.len.toNat ≤ 11)
    (h : ∃ i, ∃ hi : i < 11, i < o.len.toNat ∧ ¬ isMember s.alphabet o.sym[i]) :
    exec (.dec o) s = .next (respond 0x102#256 s) := by
  obtain ⟨i, hi, hin, hnot⟩ := h
  have hnone : inv s.alphabet o.sym[i] = none := (inv_eq_none_iff _ _).mpr (not_exists.mp hnot)
  rw [exec_eq, instrResponse, decResult_of_nonMember _ h1 h2 ⟨i, hi, hin, hnone⟩, answer,
    packResponse_error]
  rfl

section Digits
variable {d : Nat → Digit} (h1 : 1 ≤ o.len.toNat) (h2 : o.len.toNat ≤ 11)
  (hd : ∀ i (hi : i < 11), i < o.len.toNat → inv s.alphabet o.sym[i] = some (d i))
include h1 h2 hd

/-- The error response of RANGE, as one number with `ROP = 1`. -/
theorem exec_dec_of_outOfRange (h11 : o.len.toNat = 11) (h : 2 ^ 64 ≤ value11 d) :
    exec (.dec o) s = .next (respond 0x103#256 s) := by
  rw [exec_eq, instrResponse, decResult_of_digits _ h1 h2 d hd, if_pos ⟨h11, h⟩, answer,
    packResponse_error]
  rfl

theorem exec_dec_of_inRange (h : o.len.toNat = 11 → value11 d < 2 ^ 64) :
    exec (.dec o) s = .next (respond (packResponse (successResponse 1#3 {
      rlen := o.len
      rval := BitVec.ofNat 64
        (∑ k ∈ Finset.range o.len.toNat, (d k).toNat * 64 ^ (o.len.toNat - 1 - k))
      rsym := noSymbols })) s) := by
  rw [exec_eq, instrResponse, decResult_of_digits _ h1 h2 d hd,
    if_neg fun ⟨h11, hover⟩ => Nat.not_lt.mpr hover (h h11), answer]

end Digits

/-- An answer with STATUS OK is a success (R200). -/
theorem answer_ok_of_rspStatus {op : OpCode} {r : Except ErrorKind Payload}
    (h : rspStatus (packResponse (answer op r)) = 0#3) : ∃ p, r = .ok p := by
  cases r with
  | ok p => exact ⟨p, rfl⟩
  | error k => exact absurd ((rspStatus_packResponse _).symm.trans h) (errorStatus_range k).1

/-- DEC succeeds for a length in [1,11], lanes that hold the symbols of digits, and a base-64 sum that fits
64 bits only; it answers that sum (R142). -/
theorem decResult_ok_digits {a : Alphabet} {p : Payload} (h : decResult a o = .ok p) :
    1 ≤ o.len.toNat ∧ o.len.toNat ≤ 11 ∧ ∃ d : Nat → Digit,
      (∀ i (hi : i < 11), i < o.len.toNat → fwd a (d i) = o.sym[i]) ∧ p.rlen = o.len ∧
      p.rval.toNat = ∑ k ∈ Finset.range o.len.toNat, (d k).toNat * 64 ^ (o.len.toNat - 1 - k) := by
  obtain ⟨h1, h2⟩ := (lengthOk_iff _).mp (decResult_eq_ok h).1
  have hmember (i : Nat) (hi : i < 11) (hin : i < o.len.toNat) : ∃ v, inv a o.sym[i] = some v := by
    refine Option.ne_none_iff_exists'.mp fun hnone => ?_
    rw [decResult_of_nonMember a h1 h2 ⟨i, hi, hin, hnone⟩] at h
    cases h
  choose! d hd using hmember
  refine ⟨h1, h2, d, fun i hi hin => fwd_of_inv (hd i hi hin), ?_⟩
  rw [decResult_of_digits a h1 h2 d hd] at h
  split_ifs at h with hover
  cases h
  refine ⟨rfl, ?_⟩
  rw [BitVec.toNat_ofNat, Nat.mod_eq_of_lt]
  obtain h11 | h10 : o.len.toNat = 11 ∨ o.len.toNat ≤ 10 := by omega
  · rw [h11]
    exact Nat.not_le.mp fun hge => hover ⟨h11, hge⟩
  · calc ∑ k ∈ Finset.range o.len.toNat, (d k).toNat * 64 ^ (o.len.toNat - 1 - k)
        < 64 ^ o.len.toNat := sum_digits_lt d _
      _ ≤ 64 ^ 10 := Nat.pow_le_pow_right (by decide) h10
      _ ≤ 2 ^ 64 := by decide

/-- What DEC did when it answered OK: it left the alphabet, read the symbols of digits, and answered their
number and their sum (R142). -/
theorem exec_dec_ok {t : State} (hexec : exec (.dec o) s = .next t) (hok : rspStatus t.rspQ = 0#3) :
    t.alphabet = s.alphabet ∧ rspRlen t.rspQ = o.len ∧ 1 ≤ o.len.toNat ∧ o.len.toNat ≤ 11 ∧
    ∃ d : Nat → Digit, (∀ i (hi : i < 11), i < o.len.toNat → fwd s.alphabet (d i) = o.sym[i]) ∧
      (rspRval t.rspQ).toNat =
        ∑ k ∈ Finset.range o.len.toNat, (d k).toNat * 64 ^ (o.len.toNat - 1 - k) := by
  rw [exec_eq, instrResponse] at hexec
  cases hexec
  obtain ⟨p, hp⟩ := answer_ok_of_rspStatus hok
  obtain ⟨h1, h2, d, hd, hrlen, hrval⟩ := decResult_ok_digits hp
  rw [respond_rspQ, respond_alphabet, hp, answer, rspRlen_packResponse, rspRval_packResponse]
  exact ⟨rfl, hrlen, h1, h2, d, hd, hrval⟩

/-- ENC of the base-64 sum of n digits puts their symbols in the lanes (R120, R122). -/
theorem exec_enc_of_sum {d : Nat → Digit} (h1 : 1 ≤ o.len.toNat) (h2 : o.len.toNat ≤ 11)
    (hw : o.wide = false) (hv : o.val.toNat =
      ∑ k ∈ Finset.range o.len.toNat, (d k).toNat * 64 ^ (o.len.toNat - 1 - k)) :
    ∃ u, exec (.enc o) s = .next u ∧ rspStatus u.rspQ = 0#3 ∧ rspRlen u.rspQ = o.len ∧
      ∀ i, i < 11 → i < o.len.toNat → wordLane u.rspQ i = fwd s.alphabet (d i) := by
  have hfit : o.len.toNat ≤ 10 → o.val.toNat < 2 ^ (6 * o.len.toNat) := fun _ => by
    rw [hv, pow_mul]
    exact sum_digits_lt d _
  refine ⟨_, exec_enc_of_inRange h1 h2 hw hfit, rspStatus_packResponse _, rspRlen_packResponse _,
    fun i hi hin => ?_⟩
  rw [respond_rspQ, wordLane_packResponse _ i hi, successResponse, getElem_lanesOf _ i hi,
    encodedLane_of_lt _ _ hin, extract_of_sum hin hv]

end Commands

end Sys2Proof.Machine

/-! The statements about the decoder (spec/42_decoder.md): DEC whole, the composer in its three forms with the
overflow test, and that ENC undoes DEC. -/

namespace Sys2Proof.Machine

/-- Settles O8: DEC's result is ILEN, ICHAR, RANGE or the value of the digits, and `respond` delivers it. -/
theorem decAnswersTheValueOrTheError : Obligations.DecAnswersTheValueOrTheError := by
  refine fun o s => ⟨exec_dec_of_badLength, exec_dec_of_nonMember, fun ha h1 h2 d hd => ?_⟩
  have hinv (i : Nat) (hi : i < 11) (hin : i < o.len.toNat) : inv s.alphabet o.sym[i] = some (d i) :=
    inv_of_fwd ha.1 (hd i hi hin)
  exact ⟨exec_dec_of_outOfRange h1 h2 hinv, exec_dec_of_inRange h1 h2 hinv⟩

/-- Settles O24: the composition is the big-endian sum, below `64^N`, so 66 bits hold it. -/
theorem composerIsTheExactBase64Sum : Obligations.ComposerIsTheExactBase64Sum := by
  intro d n _ h2
  have hlen : ((List.range n).map d).length = n := by rw [List.length_map, List.length_range]
  have hlt := toNat_composeRaw_lt (hlen.trans_le h2)
  rw [hlen] at hlt
  exact ⟨(toNat_composeRaw _ (hlen.trans_le h2)).trans (compose_map_range d n), hlt⟩

/-- Settles O25: the first of eleven digits weighs 2^60 and the rest stay below that, so bits 65:64 are its
bits 5:4; ten digits have 60 bits. -/
theorem overflowIffFirstDigitAtLeast16 : Obligations.OverflowIffFirstDigitAtLeast16 := by
  refine ⟨fun ds h => ?_, fun ds h =>
    ⟨toNat_composeRaw_lt_two_pow_60 h, overflows_eq_false_of_length_le h⟩⟩
  cases ds with
  | nil => cases h
  | cons d ds =>
    have h10 : ds.length = 10 := Nat.succ.inj h
    have hfirst := two_pow_64_le_composeRaw_iff d h10
    have hover : overflows 11 (composeRaw (d :: ds)) = true ↔ 2 ^ 64 ≤ (composeRaw (d :: ds)).toNat :=
      (overflows_iff 11 _).trans (and_iff_right rfl)
    exact ⟨(overflows_eleven_iff _).symm.trans hover, hfirst, composeRaw_topBits d h10, hover.trans hfirst⟩

/-- Settles O26: the placed digits are the composition shifted left, and its bits 65:64 are d_0[5:4]. -/
theorem fixedPositionComposerAgrees : Obligations.FixedPositionComposerAgrees := by
  refine fun ds _ h2 => ⟨composeFixed_eq_composeRaw h2, fun h => ?_⟩
  cases ds with
  | nil => cases h
  | cons d ds => rw [overflows_eleven_iff, composeRaw_topBits d (Nat.succ.inj h)]; rfl

/-- Settles O27: both checks reject exactly the compositions of 2^64 or more. -/
theorem incrementalOverflowCheckAgrees : Obligations.IncrementalOverflowCheckAgrees := by
  intro ds _ h2
  rw [composeIncremental_zero, overflows_composeRaw_iff h2, toNat_composeRaw ds h2]
  split_ifs with hover
  · exact ⟨iff_of_true rfl hover, nofun⟩
  · exact ⟨iff_of_false nofun hover, fun acc hacc => (Option.some.inj hacc).symm⟩

/-- Settles O29: DEC answered the sum of the digits whose symbols it read, and those are the digits ENC
extracts from that sum. -/
theorem encOfDecReturnsTheLanes : Obligations.EncOfDecReturnsTheLanes := by
  intro o o' s t _ hexec hok hlen hval hwide
  obtain ⟨halpha, hrlen, h1, h2, d, hd, hrval⟩ := exec_dec_ok hexec hok
  have hn : o'.len = o.len := hlen.trans hrlen
  rw [← hval, ← hn] at hrval
  rw [← hn] at h1 h2 hd ⊢
  obtain ⟨u, hu, hstatus, hulen, hlanes⟩ := exec_enc_of_sum (s := t) h1 h2 hwide hrval
  rw [halpha] at hlanes
  exact ⟨u, hu, hstatus, hulen, fun i hi hin => (hlanes i hi hin).trans (hd i hi hin)⟩

end Sys2Proof.Machine

/-! SUPPORT. The exceptions (spec/60_exceptions.md R200 to R203): the shape of every response, and the status
of a legal command word, one error of R202 after the other. -/

namespace Sys2Proof.Machine

/-! ### Legal words and the shape of a response -/

/-- A word is legal when its reserved bits are clear and its `OP` is that of one of the four operations
(R201). -/
theorem legal_of_not_illegalWord {cmd : Word256} (h : ¬ illegalWord cmd) :
    reservedBitsSet cmd = false ∧
      (cmdOp cmd = 0#3 ∨ cmdOp cmd = 1#3 ∨ cmdOp cmd = 2#3 ∨ cmdOp cmd = 3#3) := by
  refine ⟨reservedBitsSet_of_not_illegalWord h, ?_⟩
  have hlt : (cmdOp cmd).toNat < 4 := Nat.not_le.mp fun h4 => h ((illegalWord_iff cmd).mpr (.inr h4))
  generalize cmdOp cmd = op at hlt
  revert op
  decide

/-- The response to an illegal word as one number (R201, R203). -/
theorem transact_of_illegalWord (a : Alphabet) {cmd : Word256} (h : illegalWord cmd) :
    transact a cmd = BitVec.ofNat 256 (4 + 256 * (cmdOp cmd).toNat) := by
  rw [transact_illegal a ((illegalWord_iff cmd).mp h), packResponse_error]
  rfl

/-- Every response is the answer of some result under the command's own `OP` (R70). -/
theorem exists_transact_eq_answer (a : Alphabet) (cmd : Word256) :
    ∃ r, transact a cmd = packResponse (answer (cmdOp cmd) r) := by
  by_cases hill : illegalWord cmd
  · exact ⟨.error .illegalCommand, transact_illegal a ((illegalWord_iff cmd).mp hill)⟩
  · obtain ⟨hr, hop | hop | hop | hop⟩ := legal_of_not_illegalWord hill <;> rw [hop]
    · exact ⟨_, transact_enc a hop hr⟩
    · exact ⟨_, transact_dec a hop hr⟩
    · exact ⟨_, transact_lsym a hop hr⟩
    · exact ⟨_, transact_lval a hop hr⟩

theorem rspRop_answer (op : OpCode) (r : Except ErrorKind Payload) :
    rspRop (packResponse (answer op r)) = op := by
  cases r <;> exact rspRop_packResponse _

/-- An answer whose STATUS is not OK is STATUS and `ROP` alone (R203). -/
theorem packResponse_answer_of_status_ne {op : OpCode} {r : Except ErrorKind Payload}
    (h : rspStatus (packResponse (answer op r)) ≠ 0#3) :
    packResponse (answer op r) =
      BitVec.ofNat 256 ((rspStatus (packResponse (answer op r))).toNat + 256 * op.toNat) := by
  cases r with
  | ok p => exact absurd (rspStatus_packResponse _) h
  | error k => rw [rspStatus_packResponse]; exact packResponse_error op k

/-! ### The status of a legal word (R202) -/

section Priority
variable {a : Alphabet} {cmd : Word256}

theorem length_of_not_badLength (h : ¬ badLength cmd) (hop : cmdOp cmd = 0#3 ∨ cmdOp cmd = 1#3) :
    1 ≤ (operandsOf cmd).len.toNat ∧ (operandsOf cmd).len.toNat ≤ 11 := by
  obtain ⟨h1, h2⟩ := not_or.mp fun hlen => h ⟨hop, hlen⟩
  exact ⟨Nat.not_lt.mp h1, Nat.not_lt.mp h2⟩

theorem inv_of_not_isMember {c : Symbol} (h : ¬ isMember a c) : inv a c = none :=
  (inv_eq_none_iff a c).mpr (not_exists.mp h)

/-- ILEN comes from ENC and DEC. -/
theorem rspStatus_of_badLength (hlegal : ¬ illegalWord cmd) (hlen : badLength cmd) :
    rspStatus (transact a cmd) = 1#3 := by
  have hr := reservedBitsSet_of_not_illegalWord hlegal
  obtain ⟨hop | hop, hbad⟩ := hlen
  · rw [transact_enc a hop hr, encResult_of_badLength a hbad]
    exact rspStatus_packResponse _
  · rw [transact_dec a hop hr, decResult_of_badLength a hbad]
    exact rspStatus_packResponse _

/-- ICHAR comes from DEC and LVAL. -/
theorem rspStatus_of_badCharacter (hlegal : ¬ illegalWord cmd) (hlen : ¬ badLength cmd)
    (hchar : badCharacter a cmd) : rspStatus (transact a cmd) = 2#3 := by
  have hr := reservedBitsSet_of_not_illegalWord hlegal
  obtain ⟨hop, i, hi, hnot⟩ | ⟨hop, hnot⟩ := hchar
  · obtain ⟨h1, h2⟩ := length_of_not_badLength hlen (.inr hop)
    have hnone := inv_of_not_isMember hnot
    rw [← operandsOf_sym cmd i (hi.trans_le h2)] at hnone
    rw [transact_dec a hop hr, decResult_of_nonMember a h1 h2 ⟨i, hi.trans_le h2, hi, hnone⟩]
    exact rspStatus_packResponse _
  · have hnone : inv a (operandsOf cmd).sym[0] = none := inv_of_not_isMember hnot
    rw [transact_lval a hop hr, lvalResult_of_nonMember a hnone]
    exact rspStatus_packResponse _

/-- RANGE comes from ENC, LSYM and, for eleven digits, DEC. -/
theorem rspStatus_of_badRange (ha : Alphabet.Distinct a) (hlegal : ¬ illegalWord cmd)
    (hlen : ¬ badLength cmd) (hrange : badRange a cmd) : rspStatus (transact a cmd) = 3#3 := by
  have hr := reservedBitsSet_of_not_illegalWord hlegal
  obtain ⟨hop, hbad⟩ | ⟨hop, hbad⟩ | ⟨hop, h11, d, hd, hover⟩ := hrange
  · obtain ⟨h1, h2⟩ := length_of_not_badLength hlen (.inl hop)
    rw [transact_enc a hop hr, encResult_of_outOfRange a h1 h2 hbad]
    exact rspStatus_packResponse _
  · rw [transact_lsym a hop hr, lsymResult_of_outOfRange a hbad]
    exact rspStatus_packResponse _
  · obtain ⟨h1, h2⟩ := length_of_not_badLength hlen (.inr hop)
    have hinv (i : Nat) (hi : i < 11) (_ : i < (operandsOf cmd).len.toNat) :
        inv a (operandsOf cmd).sym[i] = some (d i) :=
      inv_of_fwd ha ((hd i hi).trans (operandsOf_sym cmd i hi).symm)
    rw [transact_dec a hop hr, decResult_of_digits a h1 h2 d hinv,
      if_pos ⟨congrArg BitVec.toNat h11, hover⟩]
    exact rspStatus_packResponse _

/-- With no error of R202 each of the four operations succeeds. -/
theorem rspStatus_of_noError (ha : Alphabet.Distinct a) (hlegal : ¬ illegalWord cmd)
    (hlen : ¬ badLength cmd) (hchar : ¬ badCharacter a cmd) (hrange : ¬ badRange a cmd) :
    rspStatus (transact a cmd) = 0#3 := by
  obtain ⟨hr, hop | hop | hop | hop⟩ := legal_of_not_illegalWord hlegal
  case inl =>
    obtain ⟨h1, h2⟩ := length_of_not_badLength hlen (.inl hop)
    obtain ⟨hwide, hval⟩ := not_or.mp fun hbad => hrange (.inl ⟨hop, hbad⟩)
    rw [transact_enc a hop hr, encResult_of_inRange a h1 h2 (Bool.eq_false_of_not_eq_true hwide)
      fun h10 => Nat.not_le.mp fun hge => hval ⟨h10, hge⟩]
    exact rspStatus_packResponse _
  case inr.inl =>
    obtain ⟨h1, h2⟩ := length_of_not_badLength hlen (.inr hop)
    have hmember (i : Nat) (hi : i < (operandsOf cmd).len.toNat) :
        isMember a (cmd.extractLsb' (128 + 8 * i) 8) :=
      not_not.mp fun hnot => hchar (.inl ⟨hop, i, hi, hnot⟩)
    choose! d hd using hmember
    have hinv (i : Nat) (hi : i < 11) (hin : i < (operandsOf cmd).len.toNat) :
        inv a (operandsOf cmd).sym[i] = some (d i) :=
      inv_of_fwd ha ((hd i hin).trans (operandsOf_sym cmd i hi).symm)
    have hfit : ¬ ((operandsOf cmd).len.toNat = 11 ∧ 2 ^ 64 ≤ value11 d) := fun ⟨h11, hover⟩ =>
      hrange (.inr (.inr ⟨hop, BitVec.eq_of_toNat_eq h11, d, fun i hi => hd i (h11 ▸ hi), hover⟩))
    rw [transact_dec a hop hr, decResult_of_digits a h1 h2 d hinv, if_neg hfit]
    exact rspStatus_packResponse _
  case inr.inr.inl =>
    obtain ⟨hwide, hval⟩ := not_or.mp fun hbad => hrange (.inr (.inl ⟨hop, hbad⟩))
    have hdigit : (operandsOf cmd).val.toNat = (BitVec.ofNat 6 (operandsOf cmd).val.toNat).toNat :=
      (Nat.mod_eq_of_lt (Nat.not_le.mp hval)).symm
    rw [transact_lsym a hop hr,
      lsymResult_of_digit a _ (Bool.eq_false_of_not_eq_true hwide) hdigit]
    exact rspStatus_packResponse _
  case inr.inr.inr =>
    obtain ⟨v, hv⟩ : isMember a (operandsOf cmd).sym[0] :=
      not_not.mp fun hnot => hchar (.inr ⟨hop, hnot⟩)
    rw [transact_lval a hop hr, lvalResult_of_digit a v (inv_of_fwd ha hv)]
    exact rspStatus_packResponse _

end Priority

end Sys2Proof.Machine

/-! The statements about the exceptions (spec/60_exceptions.md): the illegal command, the priority among
errors, the error response, no stop, and the reserved opcodes. -/

namespace Sys2Proof.Machine

/-- Settles O13: an accepting edge answers `Exec` of the word, which for an illegal word is one number. -/
theorem illegalCommandRecordsStatusAndOpOnly : Obligations.IllegalCommandRecordsStatusAndOpOnly := by
  intro s hacc hill
  rw [step_eq, edgeState_of_accepts hacc, transact_of_illegalWord _ hill]
  rfl

/-- Settles O14: each clause names the operations that can raise its error, and with no error every
operation succeeds. -/
theorem statusIsTheFirstErrorThatApplies : Obligations.StatusIsTheFirstErrorThatApplies := by
  intro a cmd ha
  refine ⟨fun hill => ?_, rspStatus_of_badLength, rspStatus_of_badCharacter,
    fun hlegal hlen _ => rspStatus_of_badRange ha.1 hlegal hlen, rspStatus_of_noError ha.1⟩
  rw [transact_illegal a ((illegalWord_iff cmd).mp hill)]
  exact rspStatus_packResponse _

/-- Settles O15: every response is an answer under the command's `OP`, and an answer that is not OK is an
error response. -/
theorem errorResponseIsStatusAndOpOnly : Obligations.ErrorResponseIsStatusAndOpOnly := by
  intro a cmd
  obtain ⟨r, hr⟩ := exists_transact_eq_answer a cmd
  rw [hr]
  exact ⟨rspRop_answer _ r, packResponse_answer_of_status_ne⟩

/-- Settles O35: a step is `edgeState`, in which an accepted command has its response. -/
theorem everyEdgeAnswersANextState : Obligations.EveryEdgeAnswersANextState := fun s =>
  ⟨edgeState s, step_eq s, fun hacc => by rw [edgeState_of_accepts hacc, respond_rspValidQ]⟩

/-- Settles O11: the response of each reserved row is the IllegalCommand error under its own `OP`. -/
theorem reservedOpcodesAnswerIllegal : Obligations.ReservedOpcodesAnswerIllegal := by
  intro cmd s
  refine ⟨?_, ?_, ?_, ?_⟩ <;>
    (rw [exec_eq, instrResponse, packResponse_error]; rfl)

end Sys2Proof.Machine

/-! SUPPORT. The clock edge (spec/70_reset_and_hazards.md R230, R233, R234): which inputs make an edge accept
or consume, and what an edge does that accepts nothing. -/

namespace Sys2Proof.Machine

section Handshake
variable {s : State}

/-- A presented command is accepted when no response is pending or the host takes the pending one (R27). -/
theorem accepts_of_ready (hr : (pins s).rst = false) (hcmd : (pins s).cmdValid = true)
    (h : s.rspValidQ = false ∨ (pins s).rspReady = true) : accepts s = true := by
  obtain hv | hready := h
  · rw [accepts, hcmd, cmdReady_of_not_rspValidQ hv hr]
    rfl
  · simp [accepts, cmdReady, hr, hcmd, hready]

theorem accepts_of_not_cmdValid (h : (pins s).cmdValid = false) : accepts s = false := by
  simp [accepts, h]

theorem consumes_of_rspReady (h : (pins s).rspReady = true) : consumes s = s.rspValidQ := by
  simp [consumes, rspValid, h]

theorem consumes_of_not_rspReady (h : (pins s).rspReady = false) : consumes s = false := by
  simp [consumes, h]

theorem consumes_of_not_rspValidQ (h : s.rspValidQ = false) : consumes s = false := by
  simp [consumes, rspValid, h]

theorem edgeState_of_consumes (hr : (pins s).rst = false) (ha : accepts s = false)
    (hc : consumes s = true) : edgeState s = consumeResponse (nextCycle s) := by
  rw [edgeState, hr, ha, hc]
  rfl

/-- Without reset, accept or consume only time passes (R233). -/
theorem edgeState_of_idle (hr : (pins s).rst = false) (ha : accepts s = false)
    (hc : consumes s = false) : edgeState s = nextCycle s := by
  rw [edgeState, hr, ha, hc]
  rfl

/-- An edge at which the host takes what is pending and nothing is accepted empties the block. -/
theorem edgeState_drained (hr : (pins s).rst = false) (ha : accepts s = false)
    (hready : (pins s).rspReady = true) : (edgeState s).rspValidQ = false := by
  have hc := consumes_of_rspReady hready
  cases hv : s.rspValidQ with
  | true => rw [edgeState_of_consumes hr ha (hc.trans hv), consumeResponse_rspValidQ]
  | false => rw [edgeState_of_idle hr ha (hc.trans hv), nextCycle_rspValidQ, hv]

/-- With `rsp_ready` = 1 a run's first observation is the pending response, if there is one (R27). -/
theorem consumedIn_succ_of_rspReady (k : Nat) (hready : (pins s).rspReady = true) :
    consumedIn (k + 1) s = pendingResponse s ++ consumedIn k (edgeState s) := by
  rw [consumedIn_succ, consumes_of_rspReady hready]
  rfl

theorem pendingResponse_edgeState_of_accepts (h : accepts s = true) :
    pendingResponse (edgeState s) = [transact s.alphabet (pins s).cmdData] := by
  rw [edgeState_of_accepts h]
  rfl

end Handshake

end Sys2Proof.Machine

/-! The statements about the clock edge (spec/70_reset_and_hazards.md): the rule of R233, the reset edge, and
one command per clock. -/

namespace Sys2Proof.Machine

/-- Settles O31: each case's inputs decide which of the four edges of R233 the step takes. -/
theorem clockEdgeFollowsTheRegisterRule : Obligations.ClockEdgeFollowsTheRegisterRule := by
  rintro s _ rfl
  simp only [step_eq]
  refine ⟨fun hr => ⟨_, rfl, ?_⟩, fun hr hcmd h => ⟨_, rfl, ?_⟩, fun hr hv hready hcmd => ⟨_, rfl, ?_⟩,
    fun hr hv hready => ⟨_, rfl, ?_⟩, fun hr hv hcmd => ⟨_, rfl, ?_⟩⟩
  · rw [edgeState_of_rst hr]
    exact ⟨rfl, rfl⟩
  · rw [edgeState_of_accepts (accepts_of_ready hr hcmd h)]
    exact ⟨rfl, rfl⟩
  · rw [edgeState_of_consumes hr (accepts_of_not_cmdValid hcmd) ((consumes_of_rspReady hready).trans hv)]
    exact ⟨rfl, rfl⟩
  · rw [edgeState_of_held hr hv (consumes_of_not_rspReady hready)]
    exact ⟨hv, rfl⟩
  · rw [edgeState_of_idle hr (accepts_of_not_cmdValid hcmd) (consumes_of_not_rspValidQ hv)]
    exact ⟨hv, rfl⟩

/-- Settles O37: `rst` holds `cmd_ready` at 0, and the reset edge writes the two registers only. -/
theorem resetEdgeClearsTheRegisters : Obligations.ResetEdgeClearsTheRegisters := by
  intro s hr
  refine ⟨by simp [cmdReady, hr], accepts_of_rst s hr, edgeState s, step_eq s, ?_⟩
  rw [edgeState_of_rst hr]
  exact ⟨rfl, rfl, rfl, rfl, rfl⟩

/-- Settles O40, by induction on the commands: the first edge accepts the first one and hands over what was
pending, and its response is what is pending for the rest of the run. -/
theorem backToBackCommandsTakeOneClockEach : Obligations.BackToBackCommandsTakeOneClockEach := by
  intro cmds
  induction cmds with
  | nil =>
    intro s rest hin
    have hp := pins_of_cons s _ _ hin
    have hready : (pins s).rspReady = true := by rw [hp]
    refine ⟨rfl, consumedIn_succ_of_rspReady 0 hready, ?_⟩
    rw [List.length_nil, stateAfter_one]
    exact edgeState_drained (by rw [hp]) (accepts_of_not_cmdValid (by rw [hp])) hready
  | cons cmd cmds ih =>
    intro s rest hin
    have hp : pins s = presentCommand cmd := pins_of_cons s _ _ hin
    have hready : (pins s).rspReady = true := by rw [hp]; rfl
    have hacc : accepts s = true := accepts_of_ready (by rw [hp]; rfl) (by rw [hp]; rfl) (.inr hready)
    obtain ⟨haccepted, hconsumed, hdrained⟩ := ih (edgeState s) rest (by rw [edgeState_inputs, hin]; rfl)
    rw [pendingResponse_edgeState_of_accepts hacc, edgeState_alphabet, hp] at hconsumed
    refine ⟨?_, ?_, ?_⟩
    · rw [List.length_cons, acceptedIn_succ, haccepted, hacc, hp]
      rfl
    · rw [List.length_cons, consumedIn_succ_of_rspReady _ hready, hconsumed]
      rfl
    · rw [List.length_cons, stateAfter_succ, hdrained]

end Sys2Proof.Machine
